-- ==== Sys2Proof/Word.lean ====
section
/-! DEFINITION. The word types of the core's ports and registers, the four standards and the symbol codes. -/

namespace Sys2Proof

/-- A command word `CMD` (16 bits; R8, R56). -/
abbrev Cmd := BitVec 16

/-- The wide operand `OPA` (64 bits; R8, R56). -/
abbrev Opa := BitVec 64

/-- The narrow operand `OPB` (16 bits; R8, R56). -/
abbrev Opb := BitVec 16

/-- A result `RES` (32 bits; R8, R56). -/
abbrev Res := BitVec 32

/-- A symbol code (3 bits; R70). All eight codes exist as `LVL` operands; 6 and 7 are reserved. -/
abbrev SymCode := BitVec 3

/-- The four standards, in the order that gives their codes 0 to 3 (R15, R60). -/
inductive Std where
  | wwvb
  | dcf77
  | jjy
  | msf
  deriving DecidableEq, Repr

namespace Sym

/-- `ZERO`; for MSF the pair A = 0, B = 0 (R70). -/
abbrev zero : SymCode := 0#3

/-- `ONE`; for MSF the pair A = 1, B = 0 (R70). -/
abbrev one : SymCode := 1#3

/-- `MARK` (R70). -/
abbrev mark : SymCode := 2#3

/-- `IDLE`, DCF77's second 59 (R70). -/
abbrev idle : SymCode := 3#3

/-- `A0B1`, MSF's pair A = 0, B = 1 (R70). -/
abbrev a0b1 : SymCode := 4#3

/-- `A1B1`, MSF's pair A = 1, B = 1 (R70). -/
abbrev a1b1 : SymCode := 5#3

end Sym

end Sys2Proof
end

