-- ==== Sys2Proof/Machine/Flags.lean ====
section
/-! DEFINITION. Parity. The core has no condition flags (R29); its computed bits of that kind are the parity bits
of R96 and R97, which the `PAR` requests answer and the frame rules place. -/

namespace Sys2Proof.Machine

/-- The number of ones among `f lo, …, f hi`, both ends included; none when `lo > hi` (R11, R96). -/
def countOnes (f : Nat → Bool) (lo hi : Nat) : Nat :=
  ((List.range (hi + 1 - lo)).map fun i => (f (lo + i)).toNat).sum

/-- `xor(d[lo..hi])`: the parity of the bits of an inclusive range (R11, R12). -/
def xorRange (f : Nat → Bool) (lo hi : Nat) : Bool := countOnes f lo hi % 2 == 1

/-- `xor(v)` over all the bits of a field (R11). -/
def xorBits {w : Nat} (v : BitVec w) : Bool := xorRange v.getLsbD 0 (w - 1)

/-- `parityEven(bits, from, to)`: the popcount of the range mod 2; 0 for an empty range (R96). -/
def parityEven (bits : BitVec 64) (lo hi : Nat) : BitVec 1 := BitVec.ofBool (xorRange bits.getLsbD lo hi)

/-- `parityOdd(bits, from, to) = 1 - parityEven(bits, from, to)` (R97). -/
def parityOdd (bits : BitVec 64) (lo hi : Nat) : BitVec 1 := 1 - parityEven bits lo hi

end Sys2Proof.Machine
end

