-- ==== Sys2Proof/Machine/Operands.lean ====
section
/-! DEFINITION. The values a request's operands and a frame's fields are made of: decimal digits and BCD, bit
reversal, and the placement of a field at consecutive seconds. -/

namespace Sys2Proof.Machine

/-! ### Decimal digits and BCD (R86, R87, R90) -/

/-- The units digit of `n` (R86). -/
def units (n : Nat) : Nat := n % 10

/-- The tens digit of `n` (R86). -/
def tens (n : Nat) : Nat := n / 10 % 10

/-- The hundreds digit of `n`, reduced like the tens (R86). -/
def hundreds (n : Nat) : Nat := n / 100 % 10

/-- Plain BCD: `(tens << 4) | units` (R87). -/
def bcd (n : Nat) : BitVec 8 := BitVec.ofNat 8 (tens n) <<< 4 ||| BitVec.ofNat 8 (units n)

/-- Padded BCD: `(hundreds << 10) | (tens << 5) | units` (R90). -/
def paddedBcd (n : Nat) : BitVec 14 :=
  BitVec.ofNat 14 (hundreds n) <<< 10 ||| BitVec.ofNat 14 (tens n) <<< 5 ||| BitVec.ofNat 14 (units n)

/-- Eight-bit reversal: bit `i` of the result is bit `7 - i` of the byte (R93). -/
def reverse8 (b : BitVec 8) : BitVec 8 :=
  BitVec.ofBool b[0] ++ BitVec.ofBool b[1] ++ BitVec.ofBool b[2] ++ BitVec.ofBool b[3] ++
    BitVec.ofBool b[4] ++ BitVec.ofBool b[5] ++ BitVec.ofBool b[6] ++ BitVec.ofBool b[7]

/-! ### Placing a field in a frame (R12) -/

/-- The data bit of second `s` from the low `w` bits of `v` placed MSB-first at seconds `a` to `a + w - 1`: at
second `a + i` it is `v[w-1-i]`; at any other second it is 0 (R12, R46). -/
def msbFirst {n : Nat} (a w : Nat) (v : BitVec n) (s : Nat) : Bool :=
  a ≤ s && s < a + w && v.getLsbD (w - 1 - (s - a))

/-- The data bit of second `s` from the low `w` bits of `v` placed LSB-first at seconds `a` to `a + w - 1`: at
second `a + i` it is `v[i]`; at any other second it is 0 (R12, R47). -/
def lsbFirst {n : Nat} (a w : Nat) (v : BitVec n) (s : Nat) : Bool :=
  a ≤ s && s < a + w && v.getLsbD (s - a)

/-- The data bit of second `s` from a single bit placed at second `a`. -/
def bitAt (a : Nat) (b : Bool) (s : Nat) : Bool := s == a && b

/-- The symbol of a data bit: `ONE` for 1, `ZERO` for 0 (R127, R151, R171). -/
def dataSym (b : Bool) : SymCode := if b then Sym.one else Sym.zero

/-- A level as a result: `RES[0]` is the level, every other bit 0 (R17, R71). -/
def resOfBool (b : Bool) : Res := (BitVec.ofBool b).setWidth 32

end Sys2Proof.Machine
end

