-- ==== Sys2Proof/Syntax.lean ====
section
/-! DEFINITION. Requests, responses, the civil time, and the instructions: one constructor of `Instr` per row of
the spec's opcode table. An instruction carries the operands its format reads (R62), already pulled out of the
request; the numbers among them are `Nat` or `Int`, and WellFormed says that they fit their fields (log entry 9). -/

namespace Sys2Proof

/-- A request: command word, wide operand, narrow operand (R56). -/
structure Request where
  cmd : Cmd
  opa : Opa := 0
  opb : Opb := 0
  deriving DecidableEq, Repr

/-- A response: `STATUS` (0 = OK, 1 = ILLEGAL) and `RES` (R56, R223). -/
structure Response where
  status : BitVec 1
  res : Res
  deriving DecidableEq, Repr

/-- What the host does to the core: it issues a request (R56) or resets it between two requests (R238). -/
inductive HostEvent where
  | request (r : Request)
  | reset
  deriving DecidableEq, Repr

/-- The civil time of a format T operand, with the two auxiliary DST flags (R16, R66).
A field left out of a brace list is 0 (R79). -/
structure CivilTime where
  /-- absolute year -/
  year : Nat := 0
  /-- zero-based month -/
  month : Nat := 0
  /-- day of month, from 1 -/
  mday : Nat := 0
  hour : Nat := 0
  minute : Nat := 0
  second : Nat := 0
  /-- weekday, Sunday = 0 -/
  wday : Nat := 0
  /-- zero-based day of year -/
  yday : Nat := 0
  isdst : Bool := false
  todayDST : Bool := false
  tomorrowDST : Bool := false
  deriving DecidableEq, Repr

/-- The instructions, in the opcode table's order. `s` of a `sym` form is a signed index (R64), `lo` and `hi` of a
`par` form are the document's `from` and `to` (R65). -/
inductive Instr where
  | nop
  | bcd (n : Nat)
  | pbcd (n : Nat)
  | rev8 (b : BitVec 8)
  | parE (bits : BitVec 64) (lo hi : Nat)
  | parO (bits : BitVec 64) (lo hi : Nat)
  | encWwvb (t : CivilTime)
  | symWwvb (index : Int)
  | lvlWwvb (sym : SymCode) (ms : Nat)
  | freqWwvb
  | encDcf77 (t : CivilTime)
  | symDcf77 (index : Int)
  | lvlDcf77 (sym : SymCode) (ms : Nat)
  | freqDcf77
  | encJjy (t : CivilTime)
  | symJjy (index : Int)
  | lvlJjy (sym : SymCode) (ms : Nat)
  | freqJjy
  | encMsf (t : CivilTime)
  | symMsf (index : Int)
  | lvlMsf (sym : SymCode) (ms : Nat)
  | freqMsf
  | encSel (t : CivilTime)
  | symSel (index : Int)
  | lvlSel (sym : SymCode) (ms : Nat)
  | freqSel
  | setSel (v : BitVec 2)
  | getSel
  | setJjyf (f : BitVec 1)
  | getJjyf
  deriving DecidableEq, Repr

end Sys2Proof
end

