-- ==== Sys2Proof/WellFormed.lean ====
section
/-! DEFINITION. When an instruction's operands fit the fields that carry them (R64 to R67). Operands whose type is
already the field's width (a byte, a symbol code, the `SETSEL` and `SETJJYF` operands) always fit. -/

namespace Sys2Proof

/-- Every number of the civil time fits its field of the civil-time word (R66). -/
def CivilTime.fits (t : CivilTime) : Bool :=
  t.minute < 64 && t.hour < 32 && t.second < 64 && t.mday < 32 && t.yday < 512 &&
    t.month < 16 && t.wday < 8 && t.year < 65536

/-- A second index fits the signed 16-bit operand (R64). -/
def indexFits (index : Int) : Bool :=
  -32768 ≤ index && index < 32768

/-- The operands of an instruction fit their fields. -/
def Instr.wellFormed : Instr → Bool
  | .nop => true
  | .bcd n => n < 65536
  | .pbcd n => n < 65536
  | .rev8 _ => true
  | .parE _ lo hi => lo < 64 && hi < 64
  | .parO _ lo hi => lo < 64 && hi < 64
  | .encWwvb t => t.fits
  | .symWwvb index => indexFits index
  | .lvlWwvb _ ms => ms < 65536
  | .freqWwvb => true
  | .encDcf77 t => t.fits
  | .symDcf77 index => indexFits index
  | .lvlDcf77 _ ms => ms < 65536
  | .freqDcf77 => true
  | .encJjy t => t.fits
  | .symJjy index => indexFits index
  | .lvlJjy _ ms => ms < 65536
  | .freqJjy => true
  | .encMsf t => t.fits
  | .symMsf index => indexFits index
  | .lvlMsf _ ms => ms < 65536
  | .freqMsf => true
  | .encSel t => t.fits
  | .symSel index => indexFits index
  | .lvlSel _ ms => ms < 65536
  | .freqSel => true
  | .setSel _ => true
  | .getSel => true
  | .setJjyf _ => true
  | .getJjyf => true

end Sys2Proof
end

