-- ==== Sys2Proof/Decode.lean ====
section
/-! DEFINITION. Decoding a request into an instruction, total on every request and refusing each ILLEGAL command
word by name (R56 to R76), and the encoder an assembler follows (R66, R77, R78). -/

namespace Sys2Proof

/-- Why a command word is ILLEGAL: the five conditions of R73. All get the same response (R224), which does not
record the reason (R223). -/
inductive Illegal where
  /-- R73(a): `OP` is 0xD, 0xE or 0xF. -/
  | reservedOp
  /-- R73(b): `CMD[7:0]` is not 0. -/
  | reservedBits
  /-- R73(c): `CMD[11:9]` is not 0 outside OP 5 to 8. -/
  | standardOutsideClass
  /-- R73(d): `CMD[8]` is not 0 outside OP 4. -/
  | modeOutsidePar
  /-- R73(e): a dispatch form (`D` = 1) with `STD` not 0. -/
  | dispatchNamesStandard
  deriving DecidableEq, Repr

/-! ### Fields of the command word (R57) -/

/-- `CMD[15:12]`, the operation class. -/
def cmdOp (c : Cmd) : BitVec 4 := c.extractLsb' 12 4

/-- `CMD[11:10]`, the standard. -/
def cmdStd (c : Cmd) : BitVec 2 := c.extractLsb' 10 2

/-- `CMD[9]`, the dispatch bit. -/
def cmdD (c : Cmd) : BitVec 1 := c.extractLsb' 9 1

/-- `CMD[8]`, the parity mode. -/
def cmdM (c : Cmd) : BitVec 1 := c.extractLsb' 8 1

/-- `CMD[7:0]`, reserved. -/
def cmdReserved (c : Cmd) : BitVec 8 := c.extractLsb' 0 8

/-- R73, condition by condition: the command words answered ILLEGAL. The decoder below follows R76 and does not
call this; that the two agree is a statement. -/
def Cmd.isIllegal (c : Cmd) : Bool :=
  let op := (cmdOp c).toNat
  let standardClass := op == 5 || op == 6 || op == 7 || op == 8
  (op == 0xD || op == 0xE || op == 0xF)
    || cmdReserved c != 0
    || (!standardClass && c.extractLsb' 9 3 != 0)
    || (op != 4 && cmdM c != 0)
    || (standardClass && cmdD c == 1 && cmdStd c != 0)

/-! ### Codes and operands -/

/-- The standard a 2-bit code names (R60). -/
def stdOfCode (v : BitVec 2) : Std :=
  match v.toNat with
  | 0 => .wwvb
  | 1 => .dcf77
  | 2 => .jjy
  | _ => .msf

/-- The 2-bit code of a standard (R60). -/
def codeOfStd : Std → BitVec 2
  | .wwvb => 0#2
  | .dcf77 => 1#2
  | .jjy => 2#2
  | .msf => 3#2

/-- The civil time a format T operand carries; `OPA[63:57]` is ignored (R66, R68). -/
def civilTimeOfOpa (a : Opa) : CivilTime where
  minute := (a.extractLsb' 0 6).toNat
  hour := (a.extractLsb' 6 5).toNat
  second := (a.extractLsb' 11 6).toNat
  mday := (a.extractLsb' 17 5).toNat
  yday := (a.extractLsb' 22 9).toNat
  month := (a.extractLsb' 31 4).toNat
  wday := (a.extractLsb' 35 3).toNat
  isdst := a.getLsbD 38
  todayDST := a.getLsbD 39
  tomorrowDST := a.getLsbD 40
  year := (a.extractLsb' 41 16).toNat

/-- The civil-time word of a civil time: each field at its place, the reserved bits 0 (R66, R77, R81). -/
def opaOfCivilTime (t : CivilTime) : Opa :=
  BitVec.ofNat 64 (t.minute + t.hour <<< 6 + t.second <<< 11 + t.mday <<< 17 + t.yday <<< 22 +
    t.month <<< 31 + t.wday <<< 35 + t.isdst.toNat <<< 38 + t.todayDST.toNat <<< 39 +
    t.tomorrowDST.toNat <<< 40 + t.year <<< 41)

/-- Format B, unsigned scalar `n = zext_32(OPB[15:0])` (R64). -/
def opbNumber (b : Opb) : Nat := b.toNat

/-- Format B, signed index `s = sext_32(OPB[15:0])` (R64). -/
def opbIndex (b : Opb) : Int := b.toInt

/-- Format P, `from = OPB[5:0]` (R65). -/
def opbFrom (b : Opb) : Nat := (b.extractLsb' 0 6).toNat

/-- Format P, `to = OPB[13:8]` (R65). -/
def opbTo (b : Opb) : Nat := (b.extractLsb' 8 6).toNat

/-- Format L, `ms = zext_32(OPA[15:0])` (R67). -/
def opaMs (a : Opa) : Nat := (a.extractLsb' 0 16).toNat

/-- Format L, `sym = OPB[2:0]` (R67). -/
def opbSym (b : Opb) : SymCode := b.extractLsb' 0 3

/-! ### Decoding (R76) -/

/-- A word of OP 5 to 8: `M` must be 0; with `D` = 1 the dispatch form, which needs `STD` = 0; with `D` = 0 the
form of the standard `STD` (R59, R61, R73). -/
def decodeStandardForm (c : Cmd) (wwvb dcf77 jjy msf sel : Instr) : Except Illegal Instr :=
  if cmdM c ≠ 0 then .error .modeOutsidePar
  else if cmdD c = 1 then
    if cmdStd c ≠ 0 then .error .dispatchNamesStandard else .ok sel
  else
    match stdOfCode (cmdStd c) with
    | .wwvb => .ok wwvb
    | .dcf77 => .ok dcf77
    | .jjy => .ok jjy
    | .msf => .ok msf

/-- A word of OP 4: `STD` and `D` must be 0, and `M` chooses the parity form (R57, R73). -/
def decodeParity (c : Cmd) (even odd : Instr) : Except Illegal Instr :=
  if c.extractLsb' 9 3 ≠ 0 then .error .standardOutsideClass
  else if cmdM c = 0 then .ok even
  else .ok odd

/-- A word of any other class: `STD`, `D` and `M` must be 0 (R57, R73). -/
def decodePlain (c : Cmd) (i : Instr) : Except Illegal Instr :=
  if c.extractLsb' 9 3 ≠ 0 then .error .standardOutsideClass
  else if cmdM c ≠ 0 then .error .modeOutsidePar
  else .ok i

/-- The instruction a request asks for, or the reason its command word is ILLEGAL (R58, R76). -/
def decode (r : Request) : Except Illegal Instr :=
  let c := r.cmd
  let t := civilTimeOfOpa r.opa
  let index := opbIndex r.opb
  let ms := opaMs r.opa
  let sym := opbSym r.opb
  let lo := opbFrom r.opb
  let hi := opbTo r.opb
  if 0xD ≤ (cmdOp c).toNat then .error .reservedOp
  else if cmdReserved c ≠ 0 then .error .reservedBits
  else
    match (cmdOp c).toNat with
    | 0x0 => decodePlain c .nop
    | 0x1 => decodePlain c (.bcd (opbNumber r.opb))
    | 0x2 => decodePlain c (.pbcd (opbNumber r.opb))
    | 0x3 => decodePlain c (.rev8 (r.opb.extractLsb' 0 8))
    | 0x4 => decodeParity c (.parE r.opa lo hi) (.parO r.opa lo hi)
    | 0x5 => decodeStandardForm c (.encWwvb t) (.encDcf77 t) (.encJjy t) (.encMsf t) (.encSel t)
    | 0x6 => decodeStandardForm c (.symWwvb index) (.symDcf77 index) (.symJjy index) (.symMsf index)
        (.symSel index)
    | 0x7 => decodeStandardForm c (.lvlWwvb sym ms) (.lvlDcf77 sym ms) (.lvlJjy sym ms) (.lvlMsf sym ms)
        (.lvlSel sym ms)
    | 0x8 => decodeStandardForm c .freqWwvb .freqDcf77 .freqJjy .freqMsf .freqSel
    | 0x9 => decodePlain c (.setSel (r.opb.extractLsb' 0 2))
    | 0xA => decodePlain c .getSel
    | 0xB => decodePlain c (.setJjyf (r.opb.extractLsb' 0 1))
    | 0xC => decodePlain c .getJjyf
    | _ => .error .reservedOp

/-! ### Encoding (R77, R78) -/

/-- Format N: no operand (R63). -/
def encodeN (c : Cmd) : Request := { cmd := c }

/-- Format B with an unsigned scalar (R64). -/
def encodeNumber (c : Cmd) (n : Nat) : Request := { cmd := c, opb := BitVec.ofNat 16 n }

/-- Format B with a signed index (R64). -/
def encodeIndex (c : Cmd) (index : Int) : Request := { cmd := c, opb := BitVec.ofInt 16 index }

/-- Format P (R65). -/
def encodeRange (c : Cmd) (bits : BitVec 64) (lo hi : Nat) : Request :=
  { cmd := c, opa := bits, opb := BitVec.ofNat 16 (hi <<< 8 + lo) }

/-- Format T (R66). -/
def encodeTime (c : Cmd) (t : CivilTime) : Request := { cmd := c, opa := opaOfCivilTime t }

/-- Format L (R67). -/
def encodeLevel (c : Cmd) (sym : SymCode) (ms : Nat) : Request :=
  { cmd := c, opa := BitVec.ofNat 64 ms, opb := sym.setWidth 16 }

/-- The request of a well-formed instruction: its command word from the opcode table, every operand bit that its
format does not read 0 (R77). -/
def encode : Instr → Request
  | .nop => encodeN 0x0000
  | .bcd n => encodeNumber 0x1000 n
  | .pbcd n => encodeNumber 0x2000 n
  | .rev8 b => { cmd := 0x3000, opb := b.setWidth 16 }
  | .parE bits lo hi => encodeRange 0x4000 bits lo hi
  | .parO bits lo hi => encodeRange 0x4100 bits lo hi
  | .encWwvb t => encodeTime 0x5000 t
  | .symWwvb index => encodeIndex 0x6000 index
  | .lvlWwvb sym ms => encodeLevel 0x7000 sym ms
  | .freqWwvb => encodeN 0x8000
  | .encDcf77 t => encodeTime 0x5400 t
  | .symDcf77 index => encodeIndex 0x6400 index
  | .lvlDcf77 sym ms => encodeLevel 0x7400 sym ms
  | .freqDcf77 => encodeN 0x8400
  | .encJjy t => encodeTime 0x5800 t
  | .symJjy index => encodeIndex 0x6800 index
  | .lvlJjy sym ms => encodeLevel 0x7800 sym ms
  | .freqJjy => encodeN 0x8800
  | .encMsf t => encodeTime 0x5C00 t
  | .symMsf index => encodeIndex 0x6C00 index
  | .lvlMsf sym ms => encodeLevel 0x7C00 sym ms
  | .freqMsf => encodeN 0x8C00
  | .encSel t => encodeTime 0x5200 t
  | .symSel index => encodeIndex 0x6200 index
  | .lvlSel sym ms => encodeLevel 0x7200 sym ms
  | .freqSel => encodeN 0x8200
  | .setSel v => { cmd := 0x9000, opb := v.setWidth 16 }
  | .getSel => encodeN 0xA000
  | .setJjyf f => { cmd := 0xB000, opb := f.setWidth 16 }
  | .getJjyf => encodeN 0xC000

/-! ### The opcode table's numbering -/

/-- The request whose bits are `w`: CMD in bits 15..0, OPA in bits 79..16, OPB in bits 95..80, and every bit from
`nbits` up 0. The order CMD, OPA, OPB is R56's (DESIGN CHOICE, safe: log entry 8). -/
def requestOfTableWord (nbits w : Nat) : Request :=
  let v := (BitVec.ofNat nbits w).setWidth 96
  { cmd := v.extractLsb' 0 16, opa := v.extractLsb' 16 64, opb := v.extractLsb' 80 16 }

/-- The instruction the decoder reads from a request numbered as the opcode table numbers it. -/
def decodeTableWord (nbits w : Nat) : Option Instr :=
  match decode (requestOfTableWord nbits w) with
  | .ok i => some i
  | .error _ => none

end Sys2Proof
end

