-- ==== Sys2Proof/Machine/State.lean ====
section
/-! DEFINITION. The machine's state, its reset value, and the reasons a step can stop. -/

namespace Sys2Proof.Machine

/-- A frame register: 60 symbol codes, entry `s` for second `s` of the encoded minute (R12, R21). -/
abbrev Frame := Vector SymCode 60

/-- The frame that holds `ZERO` in every entry, the reset value of every frame register (R33). -/
def Frame.zeros : Frame := Vector.replicate 60 Sym.zero

/-- The state of the core (R20), and the model's two ports (log entries 1 and 2). -/
structure State where
  /-- `FRAME[WWVB][0..59]` (R20). -/
  frameWwvb : Frame
  /-- `FRAME[DCF77][0..59]` (R20). -/
  frameDcf77 : Frame
  /-- `FRAME[JJY][0..59]` (R20). -/
  frameJjy : Frame
  /-- `FRAME[MSF][0..59]` (R20). -/
  frameMsf : Frame
  /-- `SEL`, the code of the live standard (R27). -/
  sel : BitVec 2
  /-- `JJYF`, the JJY frequency select: 0 is 40000 Hz, 1 is 60000 Hz (R28). -/
  jjyf : BitVec 1
  /-- MODEL's own: the request port. What the host has issued and the core has not yet taken, oldest first
  (DESIGN CHOICE: log entry 1). -/
  events : List HostEvent
  /-- MODEL's own: the response port. The responses given so far, oldest first; no instruction reads it (R31;
  DESIGN CHOICE: log entry 2). -/
  responses : List Response
  deriving DecidableEq, Repr

/-- Why the machine stops. -/
inductive Fault where
  /-- Raised by an `ENC` form (`ENC.WWVB`, `ENC.DCF77`, `ENC.JJY`, `ENC.MSF`, `ENC.SEL`) whose civil time is not
  valid: R225's `fault InvalidCivilTime`, the request has no next state. Safe: it claims nothing of what the
  hardware does there (log entry 5). -/
  | invalidCivilTime
  deriving DecidableEq, Repr

/-- Why an instruction is refused. -/
inductive Refusal where
  /-- Raised by an arm of `exec` for an instruction without a meaning. No arm is one: every instruction has its
  meaning. Safe. -/
  | notModelled (mnemonic : String)
  deriving DecidableEq, Repr

/-- The outcome of one step or instruction. -/
abbrev Result := Host.Outcome State Fault Refusal

/-- The machine right after reset (R33, R34, R35, R239), with empty ports (DESIGN CHOICE: log entries 1 and 2). -/
def State.reset : State where
  frameWwvb := Frame.zeros
  frameDcf77 := Frame.zeros
  frameJjy := Frame.zeros
  frameMsf := Frame.zeros
  sel := 0
  jjyf := 0
  events := []
  responses := []

end Sys2Proof.Machine
end

