-- ==== Sys2Proof/Machine/Ops.lean ====
section
/-! DEFINITION. The named operations over the state: the two registers, the four frames, the response port, the
request port, the ILLEGAL response and the reset event. Every meaning reaches the state through these. -/

namespace Sys2Proof.Machine

/-! ### Frames (R13, R40, R41) -/

/-- The frame register of a standard. -/
def State.frame (s : State) : Std → Frame
  | .wwvb => s.frameWwvb
  | .dcf77 => s.frameDcf77
  | .jjy => s.frameJjy
  | .msf => s.frameMsf

/-- `FrameWrite(std, F)`: all 60 entries of one standard's frame in one step (R13, R24, R50). -/
def State.frameWrite (s : State) (std : Std) (F : Frame) : State :=
  match std with
  | .wwvb => { s with frameWwvb := F }
  | .dcf77 => { s with frameDcf77 := F }
  | .jjy => { s with frameJjy := F }
  | .msf => { s with frameMsf := F }

/-- `FrameRead(std, s)` for an index in range, `ZERO` for any other; there is no wrap-around (R13, R42). -/
def State.frameRead (s : State) (std : Std) (index : Int) : SymCode :=
  if h : 0 ≤ index ∧ index ≤ 59 then (s.frame std)[index.toNat]'(by omega) else Sym.zero

/-! ### Registers (R27, R28, R37) -/

/-- `SEL <- v`. -/
def State.setSel (s : State) (v : BitVec 2) : State := { s with sel := v }

/-- `JJYF <- f`. -/
def State.setJjyf (s : State) (f : BitVec 1) : State := { s with jjyf := f }

/-- The live standard, the one `SEL` names (R209). -/
def State.live (s : State) : Std := stdOfCode s.sel

/-! ### Responses (R13, R56, R71) -/

/-- `respond(status, res)`: the one response of the current request (R13, R56). -/
def State.respond (s : State) (status : BitVec 1) (res : Res) : State :=
  { s with responses := s.responses ++ [{ status := status, res := res }] }

/-- Answer OK with a result, the end of every legal request (R71, R223). -/
def answer (s : State) (res : Res) : Host.Outcome State Fault Refusal := .next (s.respond 0 res)

/-- `raise Illegal`: `STATUS` = 1, `RES` = 0, no other change (R13, R222). -/
def raiseIllegal (s : State) : Host.Outcome State Fault Refusal := .next (s.respond 1 0)

/-! ### The request port and the reset event -/

/-- Take the host's oldest event off the request port (R52). -/
def State.takeEvent (s : State) : Option (HostEvent × State) :=
  match s.events with
  | [] => none
  | e :: rest => some (e, { s with events := rest })

/-- The host has issued nothing: the core holds its state (R236; DEDUCED: log entry 6). -/
def idle (s : State) : Host.Outcome State Fault Refusal := .next s

/-- The reset event: frames, `SEL` and `JJYF` to their reset values; it answers no request (R238). -/
def resetCore (s : State) : Host.Outcome State Fault Refusal :=
  .next { s with
    frameWwvb := Frame.zeros
    frameDcf77 := Frame.zeros
    frameJjy := Frame.zeros
    frameMsf := Frame.zeros
    sel := 0
    jjyf := 0 }

/-- Put the request of a table word in front of whatever waits on the request port. -/
def State.placeRequest (s : State) (nbits w : Nat) : State :=
  { s with events := .request (requestOfTableWord nbits w) :: s.events }

end Sys2Proof.Machine
end

