-- ==== Sys2Proof/Machine/Primitives.lean ====
section
/-! DEFINITION. The bit-packing requests `BCD`, `PBCD`, `REV8`, `PAR.E`, `PAR.O`: they read and write no state
(R85). -/

namespace Sys2Proof.Machine

/-- `BCD` (R88). -/
def execBcd (n : Nat) (s : State) : Host.Outcome State Fault Refusal :=
  answer s ((bcd n).setWidth 32)

/-- `PBCD` (R91). -/
def execPbcd (n : Nat) (s : State) : Host.Outcome State Fault Refusal :=
  answer s ((paddedBcd n).setWidth 32)

/-- `REV8` (R94). -/
def execRev8 (b : BitVec 8) (s : State) : Host.Outcome State Fault Refusal :=
  answer s ((reverse8 b).setWidth 32)

/-- `PAR.E` (R98). -/
def execParE (bits : BitVec 64) (lo hi : Nat) (s : State) : Host.Outcome State Fault Refusal :=
  answer s ((parityEven bits lo hi).setWidth 32)

/-- `PAR.O` (R99). -/
def execParO (bits : BitVec 64) (lo hi : Nat) (s : State) : Host.Outcome State Fault Refusal :=
  answer s ((parityOdd bits lo hi).setWidth 32)

end Sys2Proof.Machine
end

