-- ==== Sys2Proof/Config.lean ====
section
/-! DEFINITION. What the spec leaves open: the one free value of the core. -/

namespace Sys2Proof

/-- FREE VALUE. `UnlistedLevel(std, sym, ms)` of R8, R9 and R72: the carrier level `LVL` answers for a symbol
code the standard does not define, or for a millisecond offset above 999.
It has no body, so nothing about its values can be proved (DESIGN CHOICE, safe: log entry 4). -/
opaque Config.unlistedLevel : Std → SymCode → Nat → Bool

end Sys2Proof
end

