-- ==== Sys2Proof/Machine/Calendar.lean ====
section
/-! DEFINITION. The calendar helpers the frame rules use (R100 to R114). All are exact arithmetic on numbers. -/

namespace Sys2Proof.Machine

/-- `LeapYear(y)` (R100). -/
def leapYear (y : Nat) : Bool := y % 4 == 0 && (y % 100 != 0 || y % 400 == 0)

/-- `DaysInMonth(m, y)` for the zero-based month `m` (R101). The spec gives no month above 11; the value 0 there
is reached by no valid civil time (DESIGN CHOICE, safe: log entry 7). -/
def daysInMonth (m y : Nat) : Nat :=
  match m with
  | 0 => 31
  | 1 => if leapYear y then 29 else 28
  | 2 => 31
  | 3 => 30
  | 4 => 31
  | 5 => 30
  | 6 => 31
  | 7 => 31
  | 8 => 30
  | 9 => 31
  | 10 => 30
  | 11 => 31
  | _ => 0

/-- `TwoDigitYear(y)` (R102). -/
def twoDigitYear (y : Nat) : Nat := y % 100

/-- `Valid(ct)`, the normalized civil times (R103). -/
def validTime (t : CivilTime) : Bool :=
  t.minute ≤ 59 && t.hour ≤ 23 && t.second ≤ 60 && 1 ≤ t.mday && t.mday ≤ daysInMonth t.month t.year &&
    t.yday ≤ 364 + (leapYear t.year).toNat && t.month ≤ 11 && t.wday ≤ 6 && t.year < 65536

/-- `EncodedDOY(ct)`, the 1-based day of year (R105). -/
def encodedDoy (t : CivilTime) : Nat := t.yday + 1

/-- `MONTH_OFFSET` (R8). -/
def monthOffset : Nat := 1

/-- `EncodedMonth(ct)`, the 1-based month (R106). -/
def encodedMonth (t : CivilTime) : Nat := t.month + monthOffset

/-- The month roll-over of `AddMinute`, once the day of month has advanced (R108). -/
def rollMonth (t : CivilTime) : CivilTime :=
  if t.mday > daysInMonth t.month t.year then
    if t.month + 1 = 12 then
      { t with mday := 1, month := 0, year := (t.year + 1) % 65536, yday := 0 }
    else
      { t with mday := 1, month := t.month + 1 }
  else t

/-- The day roll-over of `AddMinute`: the day of month, weekday and day of year advance (R108). -/
def nextDay (t : CivilTime) : CivilTime :=
  rollMonth { t with mday := t.mday + 1, wday := (t.wday + 1) % 7, yday := t.yday + 1 }

/-- `AddMinute(ct)`: the civil time one minute later, renormalized; the second and the DST flags stay (R108, R109). -/
def addMinute (t : CivilTime) : CivilTime :=
  if t.minute + 1 = 60 then
    if t.hour + 1 = 24 then nextDay { t with minute := 0, hour := 0 }
    else { t with minute := 0, hour := t.hour + 1 }
  else { t with minute := t.minute + 1 }

end Sys2Proof.Machine
end

