-- ==== Sys2Proof/Machine/Requests.lean ====
section
/-! DEFINITION. The shapes shared by the four standards: encoding a minute, reading a symbol, answering a level. -/

namespace Sys2Proof.Machine

/-- An `ENC` of one standard: a civil time that is not valid is `fault InvalidCivilTime` (R225); a valid one has its
frame written whole and is answered (0, 0) (R129, R153, R173, R202). `F` is the standard's frame function. -/
def encodeMinute (std : Std) (F : CivilTime → Frame) (t : CivilTime) (s : State) :
    Host.Outcome State Fault Refusal :=
  if validTime t then answer (s.frameWrite std (F t)) 0 else .fault .invalidCivilTime

/-- A `SYM` of one standard (R130, R154, R174, R203). -/
def symbolForSecond (std : Std) (index : Int) (s : State) : Host.Outcome State Fault Refusal :=
  answer s ((s.frameRead std index).setWidth 32)

/-- A `LVL` (R131, R155, R175, R204). -/
def answerLevel (level : Bool) (s : State) : Host.Outcome State Fault Refusal :=
  answer s (resOfBool level)

end Sys2Proof.Machine
end

