-- ==== Sys2Proof/Machine/Dcf77.lean ====
section
/-! DEFINITION. DCF77: the frame function `F_DCF77` (R137 to R152), the waveform, and the four requests. -/

namespace Sys2Proof.Machine

/-- The weekday DCF77 sends: 1 = Monday to 7 = Sunday (R146). -/
def dcf77Weekday (wday : Nat) : BitVec 3 := BitVec.ofNat 3 (if wday = 0 then 7 else wday)

/-- DCF77's fixed and data bits before the parity bits, of the civil time `c` that is encoded: one line per field,
0 where no field lies (R138 to R141, R143, R145 to R148). -/
def dcf77Fields (c : CivilTime) (s : Nat) : Bool :=
  bitAt 17 c.isdst s
    || bitAt 18 (!c.isdst) s
    || bitAt 20 true s
    || lsbFirst 21 7 (bcd c.minute) s
    || lsbFirst 29 6 (bcd c.hour) s
    || lsbFirst 36 6 (bcd c.mday) s
    || lsbFirst 42 3 (dcf77Weekday c.wday) s
    || lsbFirst 45 5 (bcd (encodedMonth c)) s
    || lsbFirst 50 8 (bcd c.year) s

/-- The date parity: the XOR of the four fields' own parities (R149). -/
def dcf77DateParity (c : CivilTime) : Bool :=
  ((xorBits (bcd c.mday) ^^ xorBits (dcf77Weekday c.wday)) ^^
    xorBits ((bcd (encodedMonth c)).extractLsb' 0 5)) ^^ xorBits (bcd c.year)

/-- DCF77's data bit of second `s`, the parity bits included (R142, R144, R149). -/
def dcf77Data (c : CivilTime) (s : Nat) : Bool :=
  dcf77Fields c s
    || bitAt 28 (xorRange (dcf77Fields c) 21 27) s
    || bitAt 35 (xorRange (dcf77Fields c) 29 34) s
    || bitAt 58 (dcf77DateParity c) s

/-- `F_DCF77(ct)`, the frame of the minute after the one given; second 59 is `IDLE` and none is `MARK`
(R137, R150, R151). -/
def dcf77Frame (t : CivilTime) : Frame :=
  Vector.ofFn fun s : Fin 60 => if s.val = 59 then Sym.idle else dataSym (dcf77Data (addMinute t) s)

/-- DCF77's level: low, then high from the symbol's threshold; `IDLE` always high (R155). -/
def dcf77Level (sym : SymCode) (ms : Nat) : Bool :=
  if ms > 999 then Config.unlistedLevel .dcf77 sym ms
  else if sym = Sym.zero then ms ≥ 100
  else if sym = Sym.one then ms ≥ 200
  else if sym = Sym.idle then true
  else Config.unlistedLevel .dcf77 sym ms

/-- `ENC.DCF77` (R153). -/
def execEncDcf77 (t : CivilTime) (s : State) : Host.Outcome State Fault Refusal :=
  encodeMinute .dcf77 dcf77Frame t s

/-- `SYM.DCF77` (R154). -/
def execSymDcf77 (index : Int) (s : State) : Host.Outcome State Fault Refusal :=
  symbolForSecond .dcf77 index s

/-- `LVL.DCF77` (R155). -/
def execLvlDcf77 (sym : SymCode) (ms : Nat) (s : State) : Host.Outcome State Fault Refusal :=
  answerLevel (dcf77Level sym ms) s

/-- `FREQ.DCF77` (R156). -/
def execFreqDcf77 (s : State) : Host.Outcome State Fault Refusal :=
  answer s 77500

end Sys2Proof.Machine
end

