-- ==== Sys2Proof/Machine/Jjy.lean ====
section
/-! DEFINITION. JJY: the frame function `F_JJY` (R161 to R172), the waveform, the four requests, and the frequency
select. -/

namespace Sys2Proof.Machine

/-- JJY's marker seconds (R162). -/
def jjyMarker (s : Nat) : Bool :=
  s == 0 || s == 9 || s == 19 || s == 29 || s == 39 || s == 49 || s == 59

/-- JJY's data bits before the parity bits: one line per field, 0 where no field lies (R163 to R165, R168 to
R170). -/
def jjyFields (t : CivilTime) (s : Nat) : Bool :=
  msbFirst 1 8 (paddedBcd t.minute) s
    || msbFirst 12 7 (paddedBcd t.hour) s
    || msbFirst 22 12 (paddedBcd (encodedDoy t)) s
    || msbFirst 41 8 (bcd t.year) s
    || msbFirst 50 3 (BitVec.ofNat 3 t.wday) s

/-- JJY's data bit of second `s`, the parity bits PA1 and PA2 included (R166, R167). -/
def jjyData (t : CivilTime) (s : Nat) : Bool :=
  jjyFields t s
    || bitAt 36 (xorRange (jjyFields t) 12 18) s
    || bitAt 37 (xorRange (jjyFields t) 1 8) s

/-- `F_JJY(ct)`, the frame of the minute given (R161, R171). -/
def jjyFrame (t : CivilTime) : Frame :=
  Vector.ofFn fun s : Fin 60 => if jjyMarker s then Sym.mark else dataSym (jjyData t s)

/-- JJY's level: high, then low from the symbol's threshold (R175). -/
def jjyLevel (sym : SymCode) (ms : Nat) : Bool :=
  if ms > 999 then Config.unlistedLevel .jjy sym ms
  else if sym = Sym.zero then ms < 800
  else if sym = Sym.one then ms < 500
  else if sym = Sym.mark then ms < 200
  else Config.unlistedLevel .jjy sym ms

/-- JJY's frequency, by `JJYF` (R28, R176). -/
def jjyFrequency (s : State) : Res := if s.jjyf = 1 then 60000 else 40000

/-- `ENC.JJY` (R173). -/
def execEncJjy (t : CivilTime) (s : State) : Host.Outcome State Fault Refusal :=
  encodeMinute .jjy jjyFrame t s

/-- `SYM.JJY` (R174). -/
def execSymJjy (index : Int) (s : State) : Host.Outcome State Fault Refusal :=
  symbolForSecond .jjy index s

/-- `LVL.JJY` (R175). -/
def execLvlJjy (sym : SymCode) (ms : Nat) (s : State) : Host.Outcome State Fault Refusal :=
  answerLevel (jjyLevel sym ms) s

/-- `FREQ.JJY` (R176). -/
def execFreqJjy (s : State) : Host.Outcome State Fault Refusal :=
  answer s (jjyFrequency s)

/-- `SETJJYF` (R177). -/
def execSetJjyf (f : BitVec 1) (s : State) : Host.Outcome State Fault Refusal :=
  answer (s.setJjyf f) 0

/-- `GETJJYF` (R178). -/
def execGetJjyf (s : State) : Host.Outcome State Fault Refusal :=
  answer s (s.jjyf.setWidth 32)

end Sys2Proof.Machine
end

