-- ==== Sys2Proof/Machine/Msf.lean ====
section
/-! DEFINITION. MSF: the frame function `F_MSF` over its two bit channels (R183 to R201), the waveform, and the
four requests. -/

namespace Sys2Proof.Machine

/-- The symbol of the pair (A, B): its code is `{b, 0, a}` (R14, R70, R200). -/
def msfSym (a b : Bool) : SymCode := BitVec.ofBool b ++ 0#1 ++ BitVec.ofBool a

/-- MSF's channel A bit of second `s`, of the civil time `c` that is encoded: one line per field, 0 where no field
lies; seconds 52 to 59 carry 0,1,1,1,1,1,1,0 (R185 to R192). -/
def msfA (c : CivilTime) (s : Nat) : Bool :=
  msbFirst 17 8 (bcd c.year) s
    || msbFirst 25 5 (bcd (encodedMonth c)) s
    || msbFirst 30 6 (bcd c.mday) s
    || msbFirst 36 3 (BitVec.ofNat 3 c.wday) s
    || msbFirst 39 6 (bcd c.hour) s
    || msbFirst 45 7 (bcd c.minute) s
    || msbFirst 52 8 0b01111110#8 s

/-- MSF's channel B bit of second `s`: four odd-parity bits and the DST bit, 0 elsewhere (R193 to R199). -/
def msfB (c : CivilTime) (s : Nat) : Bool :=
  bitAt 54 (!xorRange (msfA c) 17 24) s
    || bitAt 55 (!xorRange (msfA c) 25 35) s
    || bitAt 56 (!xorRange (msfA c) 36 38) s
    || bitAt 57 (!xorRange (msfA c) 39 51) s
    || bitAt 58 c.isdst s

/-- `F_MSF(ct)`, the frame of the minute after the one given; second 0 is `MARK` (R183, R184, R200). -/
def msfFrame (t : CivilTime) : Frame :=
  Vector.ofFn fun s : Fin 60 =>
    if s.val = 0 then Sym.mark else msfSym (msfA (addMinute t) s) (msfB (addMinute t) s)

/-- MSF's level: off for 100 ms, then off while the channel's bit is 1 in its own 100 ms slot, then on; `MARK` off
for 500 ms (R204). -/
def msfLevel (sym : SymCode) (ms : Nat) : Bool :=
  if ms > 999 then Config.unlistedLevel .msf sym ms
  else if sym = Sym.mark then ms ≥ 500
  else if sym = Sym.zero ∨ sym = Sym.one ∨ sym = Sym.a0b1 ∨ sym = Sym.a1b1 then
    if ms < 100 then false
    else if ms < 200 then !sym.getLsbD 0
    else if ms < 300 then !sym.getLsbD 2
    else true
  else Config.unlistedLevel .msf sym ms

/-- `ENC.MSF` (R202). -/
def execEncMsf (t : CivilTime) (s : State) : Host.Outcome State Fault Refusal :=
  encodeMinute .msf msfFrame t s

/-- `SYM.MSF` (R203). -/
def execSymMsf (index : Int) (s : State) : Host.Outcome State Fault Refusal :=
  symbolForSecond .msf index s

/-- `LVL.MSF` (R204). -/
def execLvlMsf (sym : SymCode) (ms : Nat) (s : State) : Host.Outcome State Fault Refusal :=
  answerLevel (msfLevel sym ms) s

/-- `FREQ.MSF` (R205). -/
def execFreqMsf (s : State) : Host.Outcome State Fault Refusal :=
  answer s 60000

end Sys2Proof.Machine
end

