-- ==== Sys2Proof/Machine/Wwvb.lean ====
section
/-! DEFINITION. WWVB: the frame function `F_WWVB` (R115 to R128), the waveform, and the four requests. -/

namespace Sys2Proof.Machine

/-- WWVB's marker seconds (R116). -/
def wwvbMarker (s : Nat) : Bool :=
  s == 0 || s == 9 || s == 19 || s == 29 || s == 39 || s == 49 || s == 59

/-- WWVB's data bit of second `s`: one line per field, 0 where no field lies (R117 to R124, R126). -/
def wwvbData (t : CivilTime) (s : Nat) : Bool :=
  msbFirst 1 8 (paddedBcd t.minute) s
    || msbFirst 12 7 (paddedBcd t.hour) s
    || msbFirst 22 12 (paddedBcd (encodedDoy t)) s
    || msbFirst 45 9 (paddedBcd (twoDigitYear t.year)) s
    || bitAt 55 (leapYear t.year) s
    || bitAt 57 t.tomorrowDST s
    || bitAt 58 t.todayDST s

/-- `F_WWVB(ct, todayDST, tomorrowDST)`, the frame of the minute given (R107, R127). -/
def wwvbFrame (t : CivilTime) : Frame :=
  Vector.ofFn fun s : Fin 60 => if wwvbMarker s then Sym.mark else dataSym (wwvbData t s)

/-- WWVB's level: low, then high from the symbol's threshold (R131). -/
def wwvbLevel (sym : SymCode) (ms : Nat) : Bool :=
  if ms > 999 then Config.unlistedLevel .wwvb sym ms
  else if sym = Sym.zero then ms ≥ 200
  else if sym = Sym.one then ms ≥ 500
  else if sym = Sym.mark then ms ≥ 800
  else Config.unlistedLevel .wwvb sym ms

/-- `ENC.WWVB` (R129). -/
def execEncWwvb (t : CivilTime) (s : State) : Host.Outcome State Fault Refusal :=
  encodeMinute .wwvb wwvbFrame t s

/-- `SYM.WWVB` (R130). -/
def execSymWwvb (index : Int) (s : State) : Host.Outcome State Fault Refusal :=
  symbolForSecond .wwvb index s

/-- `LVL.WWVB` (R131). -/
def execLvlWwvb (sym : SymCode) (ms : Nat) (s : State) : Host.Outcome State Fault Refusal :=
  answerLevel (wwvbLevel sym ms) s

/-- `FREQ.WWVB` (R132). -/
def execFreqWwvb (s : State) : Host.Outcome State Fault Refusal :=
  answer s 60000

end Sys2Proof.Machine
end

