-- ==== Sys2Proof/Machine/Selector.lean ====
section
/-! DEFINITION. The selector, the dispatch forms and `NOP` (R209 to R218). -/

namespace Sys2Proof.Machine

/-- `SETSEL` (R210). -/
def execSetSel (v : BitVec 2) (s : State) : Host.Outcome State Fault Refusal :=
  answer (s.setSel v) 0

/-- `GETSEL` (R211). -/
def execGetSel (s : State) : Host.Outcome State Fault Refusal :=
  answer s (s.sel.setWidth 32)

/-- `ENC.SEL`: perform the `ENC` of the live standard (R212). -/
def execEncSel (t : CivilTime) (s : State) : Host.Outcome State Fault Refusal :=
  match s.live with
  | .wwvb => execEncWwvb t s
  | .dcf77 => execEncDcf77 t s
  | .jjy => execEncJjy t s
  | .msf => execEncMsf t s

/-- `SYM.SEL`: read the live standard's frame (R213). -/
def execSymSel (index : Int) (s : State) : Host.Outcome State Fault Refusal :=
  symbolForSecond s.live index s

/-- `LVL.SEL`: perform the `LVL` of the live standard (R214). -/
def execLvlSel (sym : SymCode) (ms : Nat) (s : State) : Host.Outcome State Fault Refusal :=
  match s.live with
  | .wwvb => execLvlWwvb sym ms s
  | .dcf77 => execLvlDcf77 sym ms s
  | .jjy => execLvlJjy sym ms s
  | .msf => execLvlMsf sym ms s

/-- `FREQ.SEL`: the frequency of the live standard (R215). -/
def execFreqSel (s : State) : Host.Outcome State Fault Refusal :=
  match s.live with
  | .wwvb => answer s 60000
  | .dcf77 => answer s 77500
  | .jjy => answer s (jjyFrequency s)
  | .msf => answer s 60000

/-- `NOP` (R217). -/
def execNop (s : State) : Host.Outcome State Fault Refusal :=
  answer s 0

end Sys2Proof.Machine
end

