-- ==== Sys2Proof/Machine/Dispatch.lean ====
section
/-! DEFINITION. The meaning of every instruction: one arm per constructor, in the opcode table's order. -/

namespace Sys2Proof.Machine

def exec (i : Instr) (s : State) : Host.Outcome State Fault Refusal :=
  match i with
  | .nop => Sys2Proof.Machine.execNop s
  | .bcd n => Sys2Proof.Machine.execBcd n s
  | .pbcd n => Sys2Proof.Machine.execPbcd n s
  | .rev8 b => Sys2Proof.Machine.execRev8 b s
  | .parE bits lo hi => Sys2Proof.Machine.execParE bits lo hi s
  | .parO bits lo hi => Sys2Proof.Machine.execParO bits lo hi s
  | .encWwvb t => Sys2Proof.Machine.execEncWwvb t s
  | .symWwvb index => Sys2Proof.Machine.execSymWwvb index s
  | .lvlWwvb sym ms => Sys2Proof.Machine.execLvlWwvb sym ms s
  | .freqWwvb => Sys2Proof.Machine.execFreqWwvb s
  | .encDcf77 t => Sys2Proof.Machine.execEncDcf77 t s
  | .symDcf77 index => Sys2Proof.Machine.execSymDcf77 index s
  | .lvlDcf77 sym ms => Sys2Proof.Machine.execLvlDcf77 sym ms s
  | .freqDcf77 => Sys2Proof.Machine.execFreqDcf77 s
  | .encJjy t => Sys2Proof.Machine.execEncJjy t s
  | .symJjy index => Sys2Proof.Machine.execSymJjy index s
  | .lvlJjy sym ms => Sys2Proof.Machine.execLvlJjy sym ms s
  | .freqJjy => Sys2Proof.Machine.execFreqJjy s
  | .encMsf t => Sys2Proof.Machine.execEncMsf t s
  | .symMsf index => Sys2Proof.Machine.execSymMsf index s
  | .lvlMsf sym ms => Sys2Proof.Machine.execLvlMsf sym ms s
  | .freqMsf => Sys2Proof.Machine.execFreqMsf s
  | .encSel t => Sys2Proof.Machine.execEncSel t s
  | .symSel index => Sys2Proof.Machine.execSymSel index s
  | .lvlSel sym ms => Sys2Proof.Machine.execLvlSel sym ms s
  | .freqSel => Sys2Proof.Machine.execFreqSel s
  | .setSel v => Sys2Proof.Machine.execSetSel v s
  | .getSel => Sys2Proof.Machine.execGetSel s
  | .setJjyf f => Sys2Proof.Machine.execSetJjyf f s
  | .getJjyf => Sys2Proof.Machine.execGetJjyf s

end Sys2Proof.Machine
end

