-- ==== Sys2Proof/Machine/Step.lean ====
section
/-! DEFINITION. One step: the core takes the host's oldest event and performs it whole (R7, R52). -/

namespace Sys2Proof.Machine

/-- With nothing issued the core holds its state (R236); a reset event resets it (R238); a request is decoded and
performed (R76), or answered ILLEGAL without reading an operand (R222, R224). -/
def step (s : State) : Host.Outcome State Fault Refusal :=
  match s.takeEvent with
  | none => idle s
  | some (.reset, s') => resetCore s'
  | some (.request r, s') =>
    match decode r with
    | .ok i => exec i s'
    | .error _ => raiseIllegal s'

/-- `s` with a table word's request as the next event the core takes (log entry 1). -/
def State.withFetchWord (s : State) (nbits w : Nat) : State := s.placeRequest nbits w

end Sys2Proof.Machine
end

