-- ==== Sys2Proof/Machine/Assembly.lean ====
section
/-! DEFINITION. The assembler: one line of text to one request (R77 to R81). A line is a list of characters. The
spec gives the shape of a line and no meaning beyond the request it encodes; spacing, repeated civil-time fields and
operands that do not fit are the model's own choice (DESIGN CHOICE, safe: log entry 10). -/

namespace Sys2Proof.Machine

/-! ### Text -/

/-- A blank. -/
def isBlank (c : Char) : Bool := c == ' ' || c == '\t'

/-- The text without the blanks at its two ends. -/
def trim (l : List Char) : List Char := ((l.dropWhile isBlank).reverse.dropWhile isBlank).reverse

/-- The pieces of a text between separators, each trimmed. -/
def splitAt (sep : Char) : List Char → List (List Char)
  | [] => [[]]
  | c :: rest =>
    match splitAt sep rest with
    | [] => [[c]]
    | p :: ps => if c == sep then [] :: trim p :: ps else (c :: p) :: ps

/-- The pieces of an operand text between commas. -/
def operands (l : List Char) : List (List Char) :=
  match splitAt ',' l with
  | [] => []
  | p :: ps => trim p :: ps

/-- The value of one digit, below 16. -/
def digitValue (c : Char) : Option Nat :=
  let n := c.toNat
  if 48 ≤ n && n ≤ 57 then some (n - 48)
  else if 97 ≤ n && n ≤ 102 then some (n - 87)
  else if 65 ≤ n && n ≤ 70 then some (n - 55)
  else none

/-- The value of a row of digits in a base, added to what stands before them. -/
def digitsValue (base acc : Nat) : List Char → Option Nat
  | [] => some acc
  | c :: rest =>
    match digitValue c with
    | some d => if d < base then digitsValue base (acc * base + d) rest else none
    | none => none

/-- A number: decimal, `0x` hexadecimal or `0b` binary (R77). -/
def parseNumber (l : List Char) : Option Nat :=
  match l with
  | [] => none
  | '0' :: 'x' :: d :: ds => digitsValue 16 0 (d :: ds)
  | '0' :: 'b' :: d :: ds => digitsValue 2 0 (d :: ds)
  | d :: ds => digitsValue 10 0 (d :: ds)

/-- A number below `2 ^ bits`. -/
def parseField (bits : Nat) (l : List Char) : Option Nat :=
  match parseNumber l with
  | some n => if n < 2 ^ bits then some n else none
  | none => none

/-- A signed index that fits 16 bits (R64, R78). -/
def parseIndex (l : List Char) : Option Int :=
  let value : Option Int :=
    match l with
    | '-' :: ds => (parseNumber ds).map fun n => -(n : Int)
    | ds => (parseNumber ds).map fun n => (n : Int)
  match value with
  | some i => if indexFits i then some i else none
  | none => none

/-- The number a name stands for in a list of names. -/
def lookupName (l : List Char) : List (List Char × Nat) → Option Nat
  | [] => none
  | (name, v) :: rest => if l == name then some v else lookupName l rest

/-- The symbol names (R70, R78). -/
def symbolNames : List (List Char × Nat) :=
  [(['Z', 'E', 'R', 'O'], 0), (['O', 'N', 'E'], 1), (['M', 'A', 'R', 'K'], 2), (['I', 'D', 'L', 'E'], 3),
    (['A', '0', 'B', '1'], 4), (['A', '1', 'B', '1'], 5)]

/-- The standard names (R60, R80). -/
def standardNames : List (List Char × Nat) :=
  [(['W', 'W', 'V', 'B'], 0), (['D', 'C', 'F', '7', '7'], 1), (['J', 'J', 'Y'], 2), (['M', 'S', 'F'], 3)]

/-- The frequency names of `SETJJYF` (R78, R80). -/
def frequencyNames : List (List Char × Nat) :=
  [(['4', '0', 'k'], 0), (['6', '0', 'k'], 1)]

/-- A name of a list, or a number below `2 ^ bits`. -/
def parseNamed (names : List (List Char × Nat)) (bits : Nat) (l : List Char) : Option Nat :=
  match lookupName l names with
  | some v => some v
  | none => parseField bits l

/-! ### Civil time (R79) -/

/-- Set one field of a brace list from `key=value`; the value must fit the field (R66, R79). -/
def setTimeField (t : CivilTime) (key value : List Char) : Option CivilTime :=
  let field (bits : Nat) (f : Nat → CivilTime) : Option CivilTime := (parseField bits value).map f
  if key == ['y', 'e', 'a', 'r'] then field 16 fun n => { t with year := n }
  else if key == ['m', 'o', 'n', 't', 'h'] then field 4 fun n => { t with month := n }
  else if key == ['m', 'd', 'a', 'y'] then field 5 fun n => { t with mday := n }
  else if key == ['h', 'o', 'u', 'r'] then field 5 fun n => { t with hour := n }
  else if key == ['m', 'i', 'n', 'u', 't', 'e'] then field 6 fun n => { t with minute := n }
  else if key == ['s', 'e', 'c', 'o', 'n', 'd'] then field 6 fun n => { t with second := n }
  else if key == ['w', 'd', 'a', 'y'] then field 3 fun n => { t with wday := n }
  else if key == ['y', 'd', 'a', 'y'] then field 9 fun n => { t with yday := n }
  else if key == ['i', 's', 'd', 's', 't'] then field 1 fun n => { t with isdst := n == 1 }
  else if key == ['t', 'o', 'd', 'a', 'y'] then field 1 fun n => { t with todayDST := n == 1 }
  else if key == ['t', 'o', 'm', 'o', 'r', 'r', 'o', 'w'] then field 1 fun n => { t with tomorrowDST := n == 1 }
  else none

/-- The pieces of a brace list's inside. An empty brace list has none, and so leaves out every field: R79 says what a
field left out encodes, not whether all may be left out (DESIGN CHOICE, safe: log entry 10). -/
def timePieces : List Char → List (List Char)
  | [] => []
  | c :: rest => operands (c :: rest)

/-- Set the fields that the pieces of a brace list name, from left to right; no piece sets none. A piece that is not
`key=value`, an empty one between commas among them, is refused (DESIGN CHOICE, safe: log entry 10). -/
def setTimeFields (t : CivilTime) : List (List Char) → Option CivilTime
  | [] => some t
  | p :: ps =>
    match splitAt '=' p with
    | [key, value] =>
      match setTimeField t (trim key) value with
      | some t' => setTimeFields t' ps
      | none => none
    | _ => none

/-- A civil-time operand as `OPA`: a brace list, in which a field left out is 0, or a 64-bit number that gives `OPA`
directly (R79). -/
def parseTime (l : List Char) : Option Opa :=
  match l with
  | [] => none
  | c :: rest =>
    if c.toNat == 123 then
      match rest.reverse with
      | d :: inner =>
        if d.toNat == 125 then
          (setTimeFields {} (timePieces (trim inner.reverse))).map opaOfCivilTime
        else none
      | [] => none
    else (parseField 64 (c :: rest)).map fun n => BitVec.ofNat 64 n

/-! ### Operand syntax per mnemonic (R78) -/

/-- No operand. -/
def asmNone (i : Instr) (arg : List Char) : Option Request :=
  if arg.isEmpty then some (encode i) else none

/-- One number of `bits` bits. -/
def asmNumber (bits : Nat) (mk : Nat → Instr) (arg : List Char) : Option Request :=
  (parseField bits arg).map fun n => encode (mk n)

/-- `bits, from, to`. -/
def asmRange (mk : BitVec 64 → Nat → Nat → Instr) (arg : List Char) : Option Request :=
  match operands arg with
  | [b, lo, hi] =>
    match parseField 64 b, parseField 6 lo, parseField 6 hi with
    | some b', some lo', some hi' => some (encode (mk (BitVec.ofNat 64 b') lo' hi'))
    | _, _, _ => none
  | _ => none

/-- A civil time. A 64-bit number becomes `OPA` with every bit as written, bits 63 to 57 too, which format T does not
read: R79's "giving `OPA` directly" is taken over R77's unread operand bits of 0 (DESIGN CHOICE, safe: log entry 10). -/
def asmTime (mk : CivilTime → Instr) (arg : List Char) : Option Request :=
  (parseTime arg).map fun a => { encode (mk (civilTimeOfOpa a)) with opa := a }

/-- A second index. -/
def asmIndex (mk : Int → Instr) (arg : List Char) : Option Request :=
  (parseIndex arg).map fun i => encode (mk i)

/-- `sym, ms`. -/
def asmLevel (mk : SymCode → Nat → Instr) (arg : List Char) : Option Request :=
  match operands arg with
  | [sym, ms] =>
    match parseNamed symbolNames 3 sym, parseField 16 ms with
    | some c, some n => some (encode (mk (BitVec.ofNat 3 c) n))
    | _, _ => none
  | _ => none

/-- A name or its number. -/
def asmNamed (names : List (List Char × Nat)) (bits : Nat) (mk : Nat → Instr) (arg : List Char) :
    Option Request :=
  (parseNamed names bits arg).map fun n => encode (mk n)

/-- The part of a mnemonic after its dot: a standard's name, or `SEL` (R78). -/
def chooseStandard (name : List Char) (wwvb dcf77 jjy msf sel : Option Request) : Option Request :=
  if name == ['S', 'E', 'L'] then sel
  else
    match lookupName name standardNames with
    | some 0 => wwvb
    | some 1 => dcf77
    | some 2 => jjy
    | some 3 => msf
    | _ => none

/-- The request of a mnemonic and its operand text (R78). -/
def assembleMnemonic (m arg : List Char) : Option Request :=
  match m with
  | ['N', 'O', 'P'] => asmNone .nop arg
  | ['B', 'C', 'D'] => asmNumber 16 .bcd arg
  | ['P', 'B', 'C', 'D'] => asmNumber 16 .pbcd arg
  | ['R', 'E', 'V', '8'] => asmNumber 8 (fun n => .rev8 (BitVec.ofNat 8 n)) arg
  | ['P', 'A', 'R', '.', 'E'] => asmRange .parE arg
  | ['P', 'A', 'R', '.', 'O'] => asmRange .parO arg
  | 'E' :: 'N' :: 'C' :: '.' :: std =>
    chooseStandard std (asmTime .encWwvb arg) (asmTime .encDcf77 arg) (asmTime .encJjy arg)
      (asmTime .encMsf arg) (asmTime .encSel arg)
  | 'S' :: 'Y' :: 'M' :: '.' :: std =>
    chooseStandard std (asmIndex .symWwvb arg) (asmIndex .symDcf77 arg) (asmIndex .symJjy arg)
      (asmIndex .symMsf arg) (asmIndex .symSel arg)
  | 'L' :: 'V' :: 'L' :: '.' :: std =>
    chooseStandard std (asmLevel .lvlWwvb arg) (asmLevel .lvlDcf77 arg) (asmLevel .lvlJjy arg)
      (asmLevel .lvlMsf arg) (asmLevel .lvlSel arg)
  | 'F' :: 'R' :: 'E' :: 'Q' :: '.' :: std =>
    chooseStandard std (asmNone .freqWwvb arg) (asmNone .freqDcf77 arg) (asmNone .freqJjy arg)
      (asmNone .freqMsf arg) (asmNone .freqSel arg)
  | ['S', 'E', 'T', 'S', 'E', 'L'] =>
    asmNamed standardNames 2 (fun n => .setSel (BitVec.ofNat 2 n)) arg
  | ['G', 'E', 'T', 'S', 'E', 'L'] => asmNone .getSel arg
  | ['S', 'E', 'T', 'J', 'J', 'Y', 'F'] =>
    asmNamed frequencyNames 1 (fun n => .setJjyf (BitVec.ofNat 1 n)) arg
  | ['G', 'E', 'T', 'J', 'J', 'Y', 'F'] => asmNone .getJjyf arg
  | _ => none

/-- One line: a mnemonic, then its operands separated by commas (R77). -/
def assembleLine (line : List Char) : Option Request :=
  let l := trim line
  assembleMnemonic (l.takeWhile fun c => !isBlank c) (trim (l.dropWhile fun c => !isBlank c))

/-- The requests of a list of lines; a line starting `;` is a comment (R77), and an empty line is skipped. -/
def assemble : List (List Char) → Option (List Request)
  | [] => some []
  | line :: rest =>
    match trim line with
    | [] => assemble rest
    | ';' :: _ => assemble rest
    | _ =>
      match assembleLine line, assemble rest with
      | some r, some rs => some (r :: rs)
      | _, _ => none

end Sys2Proof.Machine
end

