-- ==== Sys2Proof/Safety.lean ====
section
/-! DEFINITION. What counts as a safe run, and the invariants of the frames, in the terms the statements use. -/

namespace Sys2Proof.Machine

/-- The civil time of an `ENC` form; no other instruction has one. -/
def civilTimeOf : Instr → Option CivilTime
  | .encWwvb t => some t
  | .encDcf77 t => some t
  | .encJjy t => some t
  | .encMsf t => some t
  | .encSel t => some t
  | _ => none

/-- An instruction that carries no invalid civil time, the host program's duty (R225, R245). -/
def safeInstr (i : Instr) : Bool :=
  match civilTimeOf i with
  | some t => validTime t
  | none => true

/-- A host event that carries no invalid civil time: a reset, an ILLEGAL request, or a safe instruction. -/
def safeEvent : HostEvent → Bool
  | .reset => true
  | .request r =>
    match decode r with
    | .ok i => safeInstr i
    | .error _ => true

/-- Every event the host has issued is safe. -/
def State.safe (s : State) : Bool := s.events.all safeEvent

/-- The frame function of a standard. -/
def frameOf : Std → CivilTime → Frame
  | .wwvb => wwvbFrame
  | .dcf77 => dcf77Frame
  | .jjy => jjyFrame
  | .msf => msfFrame

/-- The codes a frame of a standard can hold, reset included (R22, R127, R151, R171, R200). -/
def legalSym (std : Std) (c : SymCode) : Bool :=
  match std with
  | .wwvb => c == Sym.zero || c == Sym.one || c == Sym.mark
  | .dcf77 => c == Sym.zero || c == Sym.one || c == Sym.idle
  | .jjy => c == Sym.zero || c == Sym.one || c == Sym.mark
  | .msf => c == Sym.zero || c == Sym.one || c == Sym.mark || c == Sym.a1b1

/-- Every entry of every frame is a code its standard can hold; in particular never 6 or 7 (R22). -/
def State.FramesLegal (s : State) : Prop :=
  ∀ (std : Std) (k : Nat) (h : k < 60), legalSym std ((s.frame std)[k]) = true

/-- Every frame is the reset frame or the frame of some valid civil time (R24, R25, R26, R36). -/
def State.FramesEncoded (s : State) : Prop :=
  ∀ std : Std, s.frame std = Frame.zeros ∨ ∃ t, validTime t = true ∧ s.frame std = frameOf std t

end Sys2Proof.Machine
end

