-- ==== Sys2Proof/Certificates/Slice0/Obligations.lean ====
section
/-! DEFINITION. The statements for the provers, in the order of OBLIGATIONS.json. First the words they are written
in, then one `def Obligations.<Name> : Prop` each. A statement about a next state writes that state out. -/

namespace Sys2Proof.Claims

open Sys2Proof.Machine

/-! ### Words for responses and requests -/

/-- `s` after one OK response with result `res`, and nothing else. -/
def answered (s : State) (res : Res) : State :=
  { s with responses := s.responses ++ [{ status := 0, res := res }] }

/-- A carrier level as a result. -/
def levelRes (b : Bool) : Res := if b then 1 else 0

/-- R73, written over the command word as a number. -/
def illegalWord (c : Cmd) : Prop :=
  let w := c.toNat
  let op := w / 4096
  let std := w / 1024 % 4
  let d := w / 512 % 2
  let m := w / 256 % 2
  13 ≤ op ∨ w % 256 ≠ 0 ∨ (¬(5 ≤ op ∧ op ≤ 8) ∧ w / 512 % 8 ≠ 0) ∨ (op ≠ 4 ∧ m ≠ 0) ∨
    ((5 ≤ op ∧ op ≤ 8) ∧ d = 1 ∧ std ≠ 0)

/-- The bits of (`OPA`, `OPB`) that the format of a command word's class reads (R58, R62, R64 to R67). -/
def readMask (c : Cmd) : Opa × Opb :=
  match c.toNat / 4096 with
  | 1 => (0, 0xFFFF)
  | 2 => (0, 0xFFFF)
  | 3 => (0, 0x00FF)
  | 4 => (0xFFFFFFFFFFFFFFFF, 0x3F3F)
  | 5 => (0x01FFFFFFFFFFFFFF, 0)
  | 6 => (0, 0xFFFF)
  | 7 => (0xFFFF, 0x0007)
  | 9 => (0, 0x0003)
  | 11 => (0, 0x0001)
  | _ => (0, 0)

/-- The instruction among four that a 2-bit standard code chooses (R60). -/
def byCode {α : Type} (v : BitVec 2) (wwvb dcf77 jjy msf : α) : α :=
  match v.toNat with
  | 0 => wwvb
  | 1 => dcf77
  | 2 => jjy
  | _ => msf

/-- The operations that write state: the `ENC` forms, `SETSEL` and `SETJJYF` (R39). -/
def writesState : Instr → Bool
  | .encWwvb _ => true
  | .encDcf77 _ => true
  | .encJjy _ => true
  | .encMsf _ => true
  | .encSel _ => true
  | .setSel _ => true
  | .setJjyf _ => true
  | _ => false

/-- The operations that read `JJYF` (R179). -/
def readsJjyf : Instr → Bool
  | .freqJjy => true
  | .freqSel => true
  | .getJjyf => true
  | _ => false

/-- The operations that read `SEL`: the dispatch forms and `GETSEL` (R20, R27). -/
def readsSel : Instr → Bool
  | .encSel _ => true
  | .symSel _ => true
  | .lvlSel _ _ => true
  | .freqSel => true
  | .getSel => true
  | _ => false

/-- The standard whose frame an `ENC` form writes. -/
def encTarget (s : State) : Instr → Option Std
  | .encWwvb _ => some .wwvb
  | .encDcf77 _ => some .dcf77
  | .encJjy _ => some .jjy
  | .encMsf _ => some .msf
  | .encSel _ => some (byCode s.sel .wwvb .dcf77 .jjy .msf)
  | _ => none

/-- The `ENC` of a standard. -/
def encOf : Std → CivilTime → Instr
  | .wwvb => .encWwvb
  | .dcf77 => .encDcf77
  | .jjy => .encJjy
  | .msf => .encMsf

/-- Two civil times agree on the fields an encoder reads (R113). -/
def sameRead (std : Std) (a b : CivilTime) : Prop :=
  match std with
  | .wwvb => a.minute = b.minute ∧ a.hour = b.hour ∧ a.yday = b.yday ∧ a.year = b.year ∧
      a.todayDST = b.todayDST ∧ a.tomorrowDST = b.tomorrowDST
  | .jjy => a.minute = b.minute ∧ a.hour = b.hour ∧ a.yday = b.yday ∧ a.year = b.year ∧ a.wday = b.wday
  | _ => a.minute = b.minute ∧ a.hour = b.hour ∧ a.mday = b.mday ∧ a.wday = b.wday ∧ a.month = b.month ∧
      a.year = b.year ∧ a.isdst = b.isdst

/-! ### Words for frames -/

/-- The low `w` bits of `v`, most significant first. -/
def msb (w v : Nat) : List Bool := (List.range w).map fun k => v.testBit (w - 1 - k)

/-- The low `w` bits of `v`, least significant first. -/
def lsb (w v : Nat) : List Bool := (List.range w).map fun k => v.testBit k

/-- The bit that makes the number of ones even. -/
def evenBit (l : List Bool) : Bool := l.count true % 2 == 1

/-- The bit that makes the number of ones odd. -/
def oddBit (l : List Bool) : Bool := l.count true % 2 == 0

/-- Data bits as symbols. -/
def syms (l : List Bool) : List SymCode := l.map fun b => if b then Sym.one else Sym.zero

/-- `n` seconds of `ZERO`. -/
def zeros (n : Nat) : List SymCode := List.replicate n Sym.zero

/-- The leap-year rule (R100). -/
def isLeap (y : Nat) : Bool := decide (y % 4 = 0 ∧ (y % 100 ≠ 0 ∨ y % 400 = 0))

/-- The full map of R127, ten seconds a line. -/
def wwvbMap (t : CivilTime) : List SymCode :=
  let doy := t.yday + 1
  let yy := t.year % 100
  [Sym.mark] ++ syms (msb 3 (t.minute / 10 % 10) ++ [false] ++ msb 4 (t.minute % 10)) ++ [Sym.mark]
    ++ zeros 2 ++ syms (msb 2 (t.hour / 10 % 10) ++ [false] ++ msb 4 (t.hour % 10)) ++ [Sym.mark]
    ++ zeros 2 ++ syms (msb 2 (doy / 100 % 10) ++ [false] ++ msb 4 (doy / 10 % 10)) ++ [Sym.mark]
    ++ syms (msb 4 (doy % 10)) ++ zeros 5 ++ [Sym.mark]
    ++ zeros 5 ++ syms (msb 4 (yy / 10 % 10)) ++ [Sym.mark]
    ++ syms (msb 4 (yy % 10)) ++ zeros 1 ++ syms [isLeap t.year, false, t.tomorrowDST, t.todayDST] ++ [Sym.mark]

/-- The full map of R171, ten seconds a line. -/
def jjyMap (t : CivilTime) : List SymCode :=
  let doy := t.yday + 1
  let yy := t.year % 100
  let minute := msb 3 (t.minute / 10 % 10) ++ [false] ++ msb 4 (t.minute % 10)
  let hour := msb 2 (t.hour / 10 % 10) ++ [false] ++ msb 4 (t.hour % 10)
  [Sym.mark] ++ syms minute ++ [Sym.mark]
    ++ zeros 2 ++ syms hour ++ [Sym.mark]
    ++ zeros 2 ++ syms (msb 2 (doy / 100 % 10) ++ [false] ++ msb 4 (doy / 10 % 10)) ++ [Sym.mark]
    ++ syms (msb 4 (doy % 10)) ++ zeros 2 ++ syms [evenBit hour, evenBit minute] ++ zeros 1 ++ [Sym.mark]
    ++ zeros 1 ++ syms (msb 4 (yy / 10 % 10) ++ msb 4 (yy % 10)) ++ [Sym.mark]
    ++ syms (msb 3 t.wday) ++ zeros 6 ++ [Sym.mark]

/-- The full map of R151, of the civil time `c` that is encoded. -/
def dcf77Map (c : CivilTime) : List SymCode :=
  let yy := c.year % 100
  let minute := lsb 4 (c.minute % 10) ++ lsb 3 (c.minute / 10 % 10)
  let hour := lsb 4 (c.hour % 10) ++ lsb 2 (c.hour / 10 % 10)
  let date := lsb 4 (c.mday % 10) ++ lsb 2 (c.mday / 10 % 10) ++ lsb 3 (if c.wday = 0 then 7 else c.wday) ++
    lsb 4 ((c.month + 1) % 10) ++ lsb 1 ((c.month + 1) / 10 % 10) ++ lsb 4 (yy % 10) ++ lsb 4 (yy / 10 % 10)
  zeros 17 ++ syms [c.isdst, !c.isdst, false, true] ++ syms (minute ++ [evenBit minute])
    ++ syms (hour ++ [evenBit hour]) ++ syms (date ++ [evenBit date]) ++ [Sym.idle]

/-- The symbol of MSF's channel bits A and B (R200). -/
def pairSym (a b : Bool) : SymCode :=
  match a, b with
  | false, false => Sym.zero
  | true, false => Sym.one
  | false, true => Sym.a0b1
  | true, true => Sym.a1b1

/-- The full map of R200, of the civil time `c` that is encoded: second 0, then both channels of seconds 1 to 59. -/
def msfMap (c : CivilTime) : List SymCode :=
  let yy := c.year % 100
  let year := msb 4 (yy / 10 % 10) ++ msb 4 (yy % 10)
  let month := msb 1 ((c.month + 1) / 10 % 10) ++ msb 4 ((c.month + 1) % 10)
  let day := msb 2 (c.mday / 10 % 10) ++ msb 4 (c.mday % 10)
  let weekday := msb 3 c.wday
  let hour := msb 2 (c.hour / 10 % 10) ++ msb 4 (c.hour % 10)
  let minute := msb 3 (c.minute / 10 % 10) ++ msb 4 (c.minute % 10)
  let a := List.replicate 16 false ++ year ++ month ++ day ++ weekday ++ hour ++ minute ++
    [false, true, true, true, true, true, true, false]
  let b := List.replicate 53 false ++ [oddBit year, oddBit (month ++ day), oddBit weekday, oddBit (hour ++ minute),
    c.isdst, false]
  Sym.mark :: List.zipWith pairSym a b

/-- The sum of the weights of the seconds whose symbol is chosen by `p`: what a receiver reads. -/
def weigh (p : SymCode → Bool) (F : Frame) (ws : List (Nat × Nat)) : Nat :=
  (ws.map fun x => if (F.toList[x.1]?).any p then x.2 else 0).sum

/-- The symbol is `ONE`. -/
def isOne (c : SymCode) : Bool := c == Sym.one

/-- Channel A of an MSF data symbol is 1 (R70). -/
def isA (c : SymCode) : Bool := c.getLsbD 0

/-- The number of seconds of a list whose symbol is chosen by `p`. -/
def countAt (p : SymCode → Bool) (F : Frame) (l : List Nat) : Nat := weigh p F (l.map fun k => (k, 1))

/-- The weights of two BCD digits, most significant first, at consecutive seconds from `a`: `n` bits of tens. -/
def msbWeights (a n : Nat) : List (Nat × Nat) :=
  ((List.range n).map fun k => (a + k, 10 * 2 ^ (n - 1 - k))) ++ (List.range 4).map fun k => (a + n + k, 2 ^ (3 - k))

/-- The weights of two BCD digits, least significant first, at consecutive seconds from `a`: `n` bits of tens. -/
def lsbWeights (a n : Nat) : List (Nat × Nat) :=
  ((List.range 4).map fun k => (a + k, 2 ^ k)) ++ (List.range n).map fun k => (a + 4 + k, 10 * 2 ^ k)

/-- How often a level changes between two neighbouring offsets of 0..999. -/
def transitions (f : Nat → Bool) : Nat := ((List.range 999).filter fun ms => f ms != f (ms + 1)).length

/-! ### Words for the calendar -/

/-- The days before year `y`, counted from year 0 (R100). -/
def daysBeforeYear (y : Nat) : Nat := 365 * y + (y + 3) / 4 + (y + 399) / 400 - (y + 99) / 100

/-- The lengths of the twelve months of year `y` (R101). -/
def monthLengths (y : Nat) : List Nat :=
  [31, if isLeap y then 29 else 28, 31, 30, 31, 30, 31, 31, 30, 31, 30, 31]

/-- The number of the minute a civil time names, counted from the start of year 0. -/
def minuteNumber (t : CivilTime) : Nat :=
  ((daysBeforeYear t.year + ((monthLengths t.year).take t.month).sum + (t.mday - 1)) * 24 + t.hour) * 60 + t.minute

end Sys2Proof.Claims

open Sys2Proof Sys2Proof.Machine Sys2Proof.Claims

/-! ### Encoding and decoding -/

/-- R81 and R82: the worked words. -/
def Obligations.WorkedWordsDecode : Prop :=
  (∀ a b, ∃ index, decode ⟨0x6400, a, b⟩ = .ok (.symDcf77 index)) ∧
  (∀ a b, ∃ sym ms, decode ⟨0x7200, a, b⟩ = .ok (.lvlSel sym ms)) ∧
  (∀ a b, ∃ lo hi, decode ⟨0x4100, a, b⟩ = .ok (.parO a lo hi)) ∧
  (∀ a b, decode ⟨0x8800, a, b⟩ = .ok .freqJjy) ∧
  (∀ a b, ∃ t, decode ⟨0x5C00, a, b⟩ = .ok (.encMsf t)) ∧
  (∀ a b, ∃ f, decode ⟨0xB000, a, b⟩ = .ok (.setJjyf f)) ∧
  (∀ a b, decode ⟨0x6600, a, b⟩ = .error .dispatchNamesStandard) ∧
  (∀ a b, decode ⟨0x1001, a, b⟩ = .error .reservedBits) ∧
  (∀ a b, decode ⟨0x4500, a, b⟩ = .error .standardOutsideClass) ∧
  (encode (.encWwvb { year := 2008, month := 2, mday := 6, hour := 7, minute := 30, wday := 4, yday := 65 }) =
    ⟨0x5000, 0x000FB021104C01DE, 0x0000⟩)

/-- R73: exactly the words of conditions (a) to (e) are ILLEGAL, whatever the operands. -/
def Obligations.DecodeRefusesExactlyIllegalWords : Prop :=
  ∀ (c : Cmd) (a : Opa) (b : Opb), (∃ e, decode ⟨c, a, b⟩ = .error e) ↔ illegalWord c

/-- R76: a legal command word is the word of one row of the opcode table (the row of the instruction it decodes to),
and its operands fit their fields. -/
def Obligations.LegalWordIsTableRow : Prop :=
  ∀ (r : Request) (i : Instr), decode r = .ok i → (encode i).cmd = r.cmd ∧ i.wellFormed = true

/-- R68: operand bits a format does not read change neither the instruction nor the step. -/
def Obligations.UnreadOperandBitsIgnored : Prop :=
  ∀ (c : Cmd) (a a' : Opa) (b b' : Opb),
    a &&& (readMask c).1 = a' &&& (readMask c).1 → b &&& (readMask c).2 = b' &&& (readMask c).2 →
    decode ⟨c, a, b⟩ = decode ⟨c, a', b'⟩ ∧
    ∀ (s : State) (rest : List HostEvent),
      step { s with events := .request ⟨c, a, b⟩ :: rest } = step { s with events := .request ⟨c, a', b'⟩ :: rest }

/-- No bit of an encoding is dropped: decoding the request of a well-formed instruction gives it back. -/
def Obligations.DecodeEncodeAgree : Prop :=
  ∀ i : Instr, i.wellFormed = true → decode (encode i) = .ok i

/-- R77, R78: an assembled line is a legal request. -/
def Obligations.AssembledLinesAreLegal : Prop :=
  ∀ (line : List Char) (r : Request), assembleLine line = some r → ∃ i, decode r = .ok i ∧ (encode i).cmd = r.cmd

/-! ### Steps -/

/-- A step takes the oldest request and runs the instruction it decodes to. -/
def Obligations.StepRunsDecodedInstruction : Prop :=
  ∀ (s : State) (r : Request) (rest : List HostEvent) (i : Instr), s.events = .request r :: rest →
    decode r = .ok i → step s = exec i { s with events := rest }

/-- R222: an ILLEGAL command word is answered (1, 0) and changes nothing. -/
def Obligations.IllegalWordIsAnswered : Prop :=
  ∀ (s : State) (c : Cmd) (a : Opa) (b : Opb) (rest : List HostEvent),
    s.events = .request ⟨c, a, b⟩ :: rest → illegalWord c →
    step s = .next { s with events := rest, responses := s.responses ++ [{ status := 1, res := 0 }] }

/-- R236, by the model's reading (log entry 6): with nothing issued the core holds its state. -/
def Obligations.IdleCoreHoldsState : Prop :=
  ∀ s : State, s.events = [] → step s = .next s

/-- R238: the reset event sets every piece of state to its reset value and answers nothing. -/
def Obligations.ResetEventSetsState : Prop :=
  ∀ (s : State) (rest : List HostEvent), s.events = .reset :: rest →
    ∃ t, step s = .next t ∧ (∀ (std : Std) (k : Nat) (h : k < 60), (t.frame std)[k] = Sym.zero) ∧
      t.sel = 0 ∧ t.jjyf = 0 ∧ t.responses = s.responses ∧ t.events = rest

/-- R239: the state after reset. -/
def Obligations.ResetStateValues : Prop :=
  State.reset.frameWwvb.toList = List.replicate 60 Sym.zero ∧
  State.reset.frameDcf77.toList = List.replicate 60 Sym.zero ∧
  State.reset.frameJjy.toList = List.replicate 60 Sym.zero ∧
  State.reset.frameMsf.toList = List.replicate 60 Sym.zero ∧
  State.reset.sel = 0 ∧ State.reset.jjyf = 0

/-- Every request that does not fault gets exactly one response, ILLEGAL exactly for an ILLEGAL word, and leaves the
rest of the request port as it was. -/
def Obligations.EveryRequestGetsOneResponse : Prop :=
  ∀ (s t : State) (r : Request) (rest : List HostEvent), s.events = .request r :: rest → step s = .next t →
    t.events = rest ∧ ∃ resp, t.responses = s.responses ++ [resp] ∧ (resp.status = 1 ↔ illegalWord r.cmd) ∧
      (resp.status = 1 → resp.res = 0)

/-- R225, R226: an instruction faults exactly when it is an `ENC` with an invalid civil time, always as
`InvalidCivilTime`, and is never refused; every other one has a next state. -/
def Obligations.OnlyInvalidEncFaults : Prop :=
  ∀ (i : Instr) (s : State),
    ((∃ t, civilTimeOf i = some t ∧ validTime t = false) → exec i s = .fault .invalidCivilTime) ∧
    ((∀ t, civilTimeOf i = some t → validTime t = true) → ∃ u, exec i s = .next u)

/-- A host that sends only valid civil times never stops the core: every event is taken, every request answered. -/
def Obligations.SafeRunsComplete : Prop :=
  ∀ s : State, s.safe = true →
    ∃ t : State, Host.Core.run Sys2Proof.core s.events.length s = .next t ∧ t.events = [] ∧
      t.responses.length = s.responses.length + (s.events.filter fun e => e != .reset).length

/-! ### The primitives and NOP -/

/-- R217. -/
def Obligations.NopResult : Prop :=
  ∀ s : State, exec .nop s = .next (answered s 0)

/-- R87, R88. -/
def Obligations.BcdResult : Prop :=
  ∀ (n : Nat) (s : State), exec (.bcd n) s = .next (answered s (BitVec.ofNat 32 (16 * (n / 10 % 10) + n % 10)))

/-- R90, R91. -/
def Obligations.PbcdResult : Prop :=
  ∀ (n : Nat) (s : State), exec (.pbcd n) s =
    .next (answered s (BitVec.ofNat 32 (1024 * (n / 100 % 10) + 32 * (n / 10 % 10) + n % 10)))

/-- R93, R94. -/
def Obligations.Rev8Result : Prop :=
  ∀ (b : BitVec 8) (s : State), ∃ res : Res, exec (.rev8 b) s = .next (answered s res) ∧
    (∀ k < 8, res.getLsbD k = b.getLsbD (7 - k)) ∧ ∀ k, 8 ≤ k → res.getLsbD k = false

/-- R95: reversing twice gives the byte back, and reversing keeps the number of ones. -/
def Obligations.Rev8Involution : Prop :=
  ∀ (b : BitVec 8) (s : State), ∃ res : Res, exec (.rev8 b) s = .next (answered s res) ∧
    exec (.rev8 (res.setWidth 8)) s = .next (answered s (b.setWidth 32)) ∧
    ((List.range 8).filter fun k => res.getLsbD k).length = ((List.range 8).filter fun k => b.getLsbD k).length

/-- R96 to R99: both parity forms over every range, the empty one included. -/
def Obligations.ParityResults : Prop :=
  ∀ (bits : BitVec 64) (lo hi : Nat) (s : State),
    let count := ((List.range 64).filter fun k => decide (lo ≤ k ∧ k ≤ hi) && bits.getLsbD k).length
    exec (.parE bits lo hi) s = .next (answered s (BitVec.ofNat 32 (count % 2))) ∧
    exec (.parO bits lo hi) s = .next (answered s (BitVec.ofNat 32 (1 - count % 2)))

/-! ### Registers and frequencies -/

/-- R177, R178, R210, R211: the two registers are written and read back. -/
def Obligations.ConfigRegisters : Prop :=
  ∀ (v : BitVec 2) (f : BitVec 1) (s : State),
    exec (.setSel v) s = .next (answered { s with sel := v } 0) ∧
    exec .getSel s = .next (answered s (s.sel.setWidth 32)) ∧
    exec (.setJjyf f) s = .next (answered { s with jjyf := f } 0) ∧
    exec .getJjyf s = .next (answered s (s.jjyf.setWidth 32))

/-- R132, R156, R176, R205, R215: the frequencies. -/
def Obligations.FrequencyResults : Prop :=
  ∀ s : State,
    let jjy : Res := if s.jjyf = 1 then 60000 else 40000
    exec .freqWwvb s = .next (answered s 60000) ∧
    exec .freqDcf77 s = .next (answered s 77500) ∧
    exec .freqJjy s = .next (answered s jjy) ∧
    exec .freqMsf s = .next (answered s 60000) ∧
    exec .freqSel s = .next (answered s (byCode s.sel 60000 77500 jjy 60000))

/-! ### Reading a symbol -/

/-- R42, R130, R154, R174, R203, R213: an index in 0..59 reads that entry. -/
def Obligations.SymReadsEntry : Prop :=
  ∀ (k : Nat) (h : k < 60) (s : State),
    exec (.symWwvb k) s = .next (answered s (s.frameWwvb[k].setWidth 32)) ∧
    exec (.symDcf77 k) s = .next (answered s (s.frameDcf77[k].setWidth 32)) ∧
    exec (.symJjy k) s = .next (answered s (s.frameJjy[k].setWidth 32)) ∧
    exec (.symMsf k) s = .next (answered s (s.frameMsf[k].setWidth 32)) ∧
    exec (.symSel k) s = .next (answered s
      (byCode s.sel (s.frameWwvb[k].setWidth 32) (s.frameDcf77[k].setWidth 32) (s.frameJjy[k].setWidth 32)
        (s.frameMsf[k].setWidth 32)))

/-- R42, R220: any other index answers `ZERO` with status OK, and nothing records it. -/
def Obligations.SymOutOfRangeIsZero : Prop :=
  ∀ (index : Int) (s : State), index < 0 ∨ 59 < index →
    exec (.symWwvb index) s = .next (answered s 0) ∧ exec (.symDcf77 index) s = .next (answered s 0) ∧
    exec (.symJjy index) s = .next (answered s 0) ∧ exec (.symMsf index) s = .next (answered s 0) ∧
    exec (.symSel index) s = .next (answered s 0)

/-- R22: in a state whose frames are legal, no `SYM` answers a reserved code. -/
def Obligations.SymNeverAnswersReserved : Prop :=
  ∀ (index : Int) (s : State) (i : Instr), s.FramesLegal →
    i ∈ [Instr.symWwvb index, .symDcf77 index, .symJjy index, .symMsf index, .symSel index] →
    ∃ res : Res, exec i s = .next (answered s res) ∧ res.toNat < 6

/-! ### Levels -/

/-- R72, R131. The value of the free value is nowhere used. -/
def Obligations.LvlWwvbResult : Prop :=
  ∀ (ms : Nat) (s : State),
    (ms ≤ 999 →
      exec (.lvlWwvb Sym.zero ms) s = .next (answered s (levelRes (200 ≤ ms))) ∧
      exec (.lvlWwvb Sym.one ms) s = .next (answered s (levelRes (500 ≤ ms))) ∧
      exec (.lvlWwvb Sym.mark ms) s = .next (answered s (levelRes (800 ≤ ms)))) ∧
    ∀ sym : SymCode, 999 < ms ∨ 3 ≤ sym.toNat →
      exec (.lvlWwvb sym ms) s = .next (answered s (levelRes (Config.unlistedLevel .wwvb sym ms)))

/-- R72, R155. The value of the free value is nowhere used. -/
def Obligations.LvlDcf77Result : Prop :=
  ∀ (ms : Nat) (s : State),
    (ms ≤ 999 →
      exec (.lvlDcf77 Sym.zero ms) s = .next (answered s (levelRes (100 ≤ ms))) ∧
      exec (.lvlDcf77 Sym.one ms) s = .next (answered s (levelRes (200 ≤ ms))) ∧
      exec (.lvlDcf77 Sym.idle ms) s = .next (answered s 1)) ∧
    ∀ sym : SymCode, 999 < ms ∨ sym = Sym.mark ∨ 4 ≤ sym.toNat →
      exec (.lvlDcf77 sym ms) s = .next (answered s (levelRes (Config.unlistedLevel .dcf77 sym ms)))

/-- R72, R175. The value of the free value is nowhere used. -/
def Obligations.LvlJjyResult : Prop :=
  ∀ (ms : Nat) (s : State),
    (ms ≤ 999 →
      exec (.lvlJjy Sym.zero ms) s = .next (answered s (levelRes (ms < 800))) ∧
      exec (.lvlJjy Sym.one ms) s = .next (answered s (levelRes (ms < 500))) ∧
      exec (.lvlJjy Sym.mark ms) s = .next (answered s (levelRes (ms < 200)))) ∧
    ∀ sym : SymCode, 999 < ms ∨ 3 ≤ sym.toNat →
      exec (.lvlJjy sym ms) s = .next (answered s (levelRes (Config.unlistedLevel .jjy sym ms)))

/-- R72, R204. The value of the free value is nowhere used. -/
def Obligations.LvlMsfResult : Prop :=
  ∀ (ms : Nat) (s : State),
    (ms ≤ 999 →
      exec (.lvlMsf Sym.mark ms) s = .next (answered s (levelRes (500 ≤ ms))) ∧
      ∀ a b : Bool, exec (.lvlMsf (pairSym a b) ms) s = .next (answered s (levelRes
        (if ms < 100 then false else if ms < 200 then !a else if ms < 300 then !b else true)))) ∧
    ∀ sym : SymCode, 999 < ms ∨ sym = Sym.idle ∨ 6 ≤ sym.toNat →
      exec (.lvlMsf sym ms) s = .next (answered s (levelRes (Config.unlistedLevel .msf sym ms)))

/-- R214: `LVL.SEL` answers the level of the standard `SEL` names, for its own symbols within the second. -/
def Obligations.LvlSelResult : Prop :=
  ∀ (ms : Nat) (s : State), ms ≤ 999 →
    exec (.lvlSel Sym.zero ms) s = .next (answered s (levelRes
      (byCode s.sel (decide (200 ≤ ms)) (decide (100 ≤ ms)) (decide (ms < 800)) (decide (100 ≤ ms))))) ∧
    exec (.lvlSel Sym.one ms) s = .next (answered s (levelRes
      (byCode s.sel (decide (500 ≤ ms)) (decide (200 ≤ ms)) (decide (ms < 500)) (decide (200 ≤ ms))))) ∧
    (s.sel ≠ 1 → exec (.lvlSel Sym.mark ms) s = .next (answered s (levelRes
      (byCode s.sel (decide (800 ≤ ms)) false (decide (ms < 200)) (decide (500 ≤ ms)))))) ∧
    (s.sel = 1 → exec (.lvlSel Sym.idle ms) s = .next (answered s 1))

/-- R135, R159, R182, R208: within the second, each symbol's level changes as often as the spec says. -/
def Obligations.LevelTransitions : Prop :=
  ∀ (s : State) (mk : Nat → Instr) (n : Nat),
    (mk, n) ∈ [(Instr.lvlWwvb Sym.zero, 1), (Instr.lvlWwvb Sym.one, 1), (Instr.lvlWwvb Sym.mark, 1),
      (Instr.lvlDcf77 Sym.zero, 1), (Instr.lvlDcf77 Sym.one, 1), (Instr.lvlDcf77 Sym.idle, 0),
      (Instr.lvlJjy Sym.zero, 1), (Instr.lvlJjy Sym.one, 1), (Instr.lvlJjy Sym.mark, 1),
      (Instr.lvlMsf Sym.zero, 1), (Instr.lvlMsf Sym.one, 1), (Instr.lvlMsf Sym.mark, 1),
      (Instr.lvlMsf Sym.a1b1, 1), (Instr.lvlMsf Sym.a0b1, 3)] →
    ∃ f : Nat → Bool, (∀ ms ≤ 999, exec (mk ms) s = .next (answered s (levelRes (f ms)))) ∧ transitions f = n

/-! ### Encoding a minute -/

/-- R116 to R127, R129: `ENC.WWVB` writes the frame of R127's map, and nothing else. -/
def Obligations.EncWwvbWritesFrame : Prop :=
  ∀ (t : CivilTime) (s : State), validTime t = true →
    ∃ F : Frame, F.toList = wwvbMap t ∧ exec (.encWwvb t) s = .next (answered { s with frameWwvb := F } 0)

/-- R138 to R151, R153: `ENC.DCF77` writes the frame of R151's map for the upcoming minute, and nothing else. -/
def Obligations.EncDcf77WritesFrame : Prop :=
  ∀ (t : CivilTime) (s : State), validTime t = true →
    ∃ F : Frame, F.toList = dcf77Map (addMinute t) ∧
      exec (.encDcf77 t) s = .next (answered { s with frameDcf77 := F } 0)

/-- R162 to R171, R173: `ENC.JJY` writes the frame of R171's map, and nothing else. -/
def Obligations.EncJjyWritesFrame : Prop :=
  ∀ (t : CivilTime) (s : State), validTime t = true →
    ∃ F : Frame, F.toList = jjyMap t ∧ exec (.encJjy t) s = .next (answered { s with frameJjy := F } 0)

/-- R184 to R200, R202: `ENC.MSF` writes the frame of R200's map for the upcoming minute, and nothing else. -/
def Obligations.EncMsfWritesFrame : Prop :=
  ∀ (t : CivilTime) (s : State), validTime t = true →
    ∃ F : Frame, F.toList = msfMap (addMinute t) ∧
      exec (.encMsf t) s = .next (answered { s with frameMsf := F } 0)

/-- R212: `ENC.SEL` writes the frame of the standard `SEL` names, and nothing else. -/
def Obligations.EncSelWritesLiveFrame : Prop :=
  ∀ (t : CivilTime) (s : State), validTime t = true →
    ∃ F : Frame,
      F.toList = byCode s.sel (wwvbMap t) (dcf77Map (addMinute t)) (jjyMap t) (msfMap (addMinute t)) ∧
      exec (.encSel t) s = .next (answered
        (byCode s.sel { s with frameWwvb := F } { s with frameDcf77 := F } { s with frameJjy := F }
          { s with frameMsf := F }) 0)

/-- R216: a dispatch form is the form of the standard `SEL` names, in response and next state. -/
def Obligations.DispatchFormsEqualStandardForms : Prop :=
  ∀ (s : State) (t : CivilTime) (index : Int) (sym : SymCode) (ms : Nat),
    exec (.encSel t) s = exec (byCode s.sel (.encWwvb t) (.encDcf77 t) (.encJjy t) (.encMsf t)) s ∧
    exec (.symSel index) s =
      exec (byCode s.sel (.symWwvb index) (.symDcf77 index) (.symJjy index) (.symMsf index)) s ∧
    exec (.lvlSel sym ms) s =
      exec (byCode s.sel (.lvlWwvb sym ms) (.lvlDcf77 sym ms) (.lvlJjy sym ms) (.lvlMsf sym ms)) s ∧
    exec .freqSel s = exec (byCode s.sel .freqWwvb .freqDcf77 .freqJjy .freqMsf) s

/-- Reading a WWVB frame by the weights of R127's map gives back the civil time encoded. -/
def Obligations.WwvbFrameReadsBack : Prop :=
  ∀ (t : CivilTime) (s : State), validTime t = true → ∃ u, exec (.encWwvb t) s = .next u ∧
    let read := weigh isOne u.frameWwvb
    read [(1, 40), (2, 20), (3, 10), (5, 8), (6, 4), (7, 2), (8, 1)] = t.minute ∧
    read [(12, 20), (13, 10), (15, 8), (16, 4), (17, 2), (18, 1)] = t.hour ∧
    read [(22, 200), (23, 100), (25, 80), (26, 40), (27, 20), (28, 10), (30, 8), (31, 4), (32, 2), (33, 1)] =
      t.yday + 1 ∧
    read [(45, 80), (46, 40), (47, 20), (48, 10), (50, 8), (51, 4), (52, 2), (53, 1)] = t.year % 100

/-- Reading a JJY frame by the weights of R171's map gives back the civil time encoded. -/
def Obligations.JjyFrameReadsBack : Prop :=
  ∀ (t : CivilTime) (s : State), validTime t = true → ∃ u, exec (.encJjy t) s = .next u ∧
    let read := weigh isOne u.frameJjy
    read [(1, 40), (2, 20), (3, 10), (5, 8), (6, 4), (7, 2), (8, 1)] = t.minute ∧
    read [(12, 20), (13, 10), (15, 8), (16, 4), (17, 2), (18, 1)] = t.hour ∧
    read [(22, 200), (23, 100), (25, 80), (26, 40), (27, 20), (28, 10), (30, 8), (31, 4), (32, 2), (33, 1)] =
      t.yday + 1 ∧
    read (msbWeights 41 4) = t.year % 100 ∧
    read [(50, 4), (51, 2), (52, 1)] = t.wday

/-- Reading a DCF77 frame by the weights of R141 to R148 gives back the upcoming minute. -/
def Obligations.Dcf77FrameReadsBack : Prop :=
  ∀ (t : CivilTime) (s : State), validTime t = true → ∃ u, exec (.encDcf77 t) s = .next u ∧
    let read := weigh isOne u.frameDcf77
    let c := addMinute t
    read (lsbWeights 21 3) = c.minute ∧ read (lsbWeights 29 2) = c.hour ∧ read (lsbWeights 36 2) = c.mday ∧
    read [(42, 1), (43, 2), (44, 4)] = (if c.wday = 0 then 7 else c.wday) ∧
    read (lsbWeights 45 1) = c.month + 1 ∧ read (lsbWeights 50 4) = c.year % 100

/-- Reading channel A of an MSF frame by the weights of R200's map gives back the upcoming minute. -/
def Obligations.MsfFrameReadsBack : Prop :=
  ∀ (t : CivilTime) (s : State), validTime t = true → ∃ u, exec (.encMsf t) s = .next u ∧
    let read := weigh isA u.frameMsf
    let c := addMinute t
    read (msbWeights 17 4) = c.year % 100 ∧ read (msbWeights 25 1) = c.month + 1 ∧
    read (msbWeights 30 2) = c.mday ∧ read [(36, 4), (37, 2), (38, 1)] = c.wday ∧
    read (msbWeights 39 2) = c.hour ∧ read (msbWeights 45 3) = c.minute

/-- R158: DCF77's three protected ranges hold an even number of ones after any `ENC.DCF77`. -/
def Obligations.Dcf77ParityCloses : Prop :=
  ∀ (t : CivilTime) (s : State), validTime t = true → ∃ u, exec (.encDcf77 t) s = .next u ∧
    countAt isOne u.frameDcf77 (List.range' 21 8) % 2 = 0 ∧
    countAt isOne u.frameDcf77 (List.range' 29 7) % 2 = 0 ∧
    countAt isOne u.frameDcf77 (List.range' 36 23) % 2 = 0

/-- R181: JJY's two protected fields, each with its parity bit, hold an even number of ones after any `ENC.JJY`. -/
def Obligations.JjyParityCloses : Prop :=
  ∀ (t : CivilTime) (s : State), validTime t = true → ∃ u, exec (.encJjy t) s = .next u ∧
    countAt isOne u.frameJjy (List.range' 12 7 ++ [36]) % 2 = 0 ∧
    countAt isOne u.frameJjy (List.range' 1 8 ++ [37]) % 2 = 0

/-- R207: MSF's four protected fields of channel A, each with its channel B parity bit, hold an odd number of ones
after any `ENC.MSF`. -/
def Obligations.MsfParityCloses : Prop :=
  ∀ (t : CivilTime) (s : State), validTime t = true → ∃ u, exec (.encMsf t) s = .next u ∧
    let a := countAt isA u.frameMsf
    let b := countAt (fun c => c.getLsbD 2) u.frameMsf
    (a (List.range' 17 8) + b [54]) % 2 = 1 ∧ (a (List.range' 25 11) + b [55]) % 2 = 1 ∧
    (a (List.range' 36 3) + b [56]) % 2 = 1 ∧ (a (List.range' 39 13) + b [57]) % 2 = 1

/-- R133, R180: after any `ENC` of WWVB or JJY, `SYM` answers `MARK` at the seven marker seconds and `ZERO` or `ONE`
at every other. -/
def Obligations.MarkerSeconds : Prop :=
  ∀ (t : CivilTime) (s : State), validTime t = true → ∃ u v, exec (.encWwvb t) s = .next u ∧
    exec (.encJjy t) s = .next v ∧ ∀ k : Nat, k < 60 → ∃ a b : Res,
      exec (.symWwvb k) u = .next (answered u a) ∧ exec (.symJjy k) v = .next (answered v b) ∧
      (if k ∈ [0, 9, 19, 29, 39, 49, 59] then a = 2 ∧ b = 2 else (a = 0 ∨ a = 1) ∧ (b = 0 ∨ b = 1))

/-- R157: DCF77's fixed seconds after any `ENC.DCF77`. -/
def Obligations.Dcf77FixedSeconds : Prop :=
  ∀ (t : CivilTime) (s : State), validTime t = true → ∃ u, exec (.encDcf77 t) s = .next u ∧
    (∀ k (h : k < 60), k ≤ 16 ∨ k = 19 → u.frameDcf77[k] = Sym.zero) ∧
    u.frameDcf77[20] = Sym.one ∧ u.frameDcf77[59] = Sym.idle ∧
    (u.frameDcf77[17] = Sym.one ∧ u.frameDcf77[18] = Sym.zero ∨
      u.frameDcf77[17] = Sym.zero ∧ u.frameDcf77[18] = Sym.one) ∧
    ∀ k (h : k < 60), u.frameDcf77[k] ≠ Sym.mark

/-- R206: MSF's fixed seconds after any `ENC.MSF`. -/
def Obligations.MsfFixedSeconds : Prop :=
  ∀ (t : CivilTime) (s : State), validTime t = true → ∃ u, exec (.encMsf t) s = .next u ∧
    u.frameMsf[0] = Sym.mark ∧ u.frameMsf[52] = Sym.zero ∧ u.frameMsf[53] = Sym.one ∧ u.frameMsf[59] = Sym.zero ∧
    (∀ k (h : k < 60), 54 ≤ k → k ≤ 58 → u.frameMsf[k] = Sym.one ∨ u.frameMsf[k] = Sym.a1b1) ∧
    ∀ k (h : k < 60), 0 < k → u.frameMsf[k] ≠ Sym.mark

/-! ### What changes and what does not -/

/-- R39: an operation that is none of `ENC`, `SETSEL`, `SETJJYF` answers and leaves all state unchanged. -/
def Obligations.NonWritersLeaveState : Prop :=
  ∀ (i : Instr) (s : State), writesState i = false → ∃ res, exec i s = .next (answered s res)

/-- R23, R24: an `ENC` changes no other standard's frame, no register and nothing on the request port. -/
def Obligations.EncChangesOnlyItsFrame : Prop :=
  ∀ (i : Instr) (s t : State) (std : Std), encTarget s i = some std → exec i s = .next t →
    (∀ other, other ≠ std → t.frame other = s.frame other) ∧ t.sel = s.sel ∧ t.jjyf = s.jjyf ∧
      t.events = s.events ∧ t.responses = s.responses ++ [{ status := 0, res := 0 }]

/-- R25, R114: the frame an `ENC` writes depends only on the fields its encoder reads, not on the state. -/
def Obligations.FrameDependsOnReadFields : Prop :=
  ∀ (std : Std) (a b : CivilTime) (s s' t t' : State), sameRead std a b → exec (encOf std a) s = .next t →
    exec (encOf std b) s' = .next t' → t.frame std = t'.frame std

/-- R31: no instruction reads an earlier response. -/
def Obligations.ResponsesNeverRead : Prop :=
  ∀ (i : Instr) (s t : State), exec i s = .next t → ∃ r : Response, t.responses = s.responses ++ [r] ∧
    ∀ l : List Response, exec i { s with responses := l } = .next { t with responses := l ++ [r] }

/-- R179: only `FREQ.JJY`, `FREQ.SEL` and `GETJJYF` read `JJYF`. -/
def Obligations.JjyfReadByThreeForms : Prop :=
  ∀ (i : Instr) (s t : State) (f : BitVec 1), readsJjyf i = false → exec i s = .next t →
    ∃ t', exec i { s with jjyf := f } = .next t' ∧ t'.responses = t.responses ∧ t'.sel = t.sel ∧
      (∀ std, t'.frame std = t.frame std) ∧ ((∃ v, i = .setJjyf v) ∧ t'.jjyf = t.jjyf ∨ t'.jjyf = f)

/-- R27: only the dispatch forms and `GETSEL` read `SEL`. -/
def Obligations.SelReadBySelForms : Prop :=
  ∀ (i : Instr) (s t : State) (v : BitVec 2), readsSel i = false → exec i s = .next t →
    ∃ t', exec i { s with sel := v } = .next t' ∧ t'.responses = t.responses ∧ t'.jjyf = t.jjyf ∧
      (∀ std, t'.frame std = t.frame std) ∧ ((∃ w, i = .setSel w) ∧ t'.sel = t.sel ∨ t'.sel = v)

/-! ### Invariants -/

/-- R22: every step keeps every frame within the codes of its standard; 6 and 7 never appear. -/
def Obligations.StepKeepsFramesLegal : Prop :=
  ∀ s t : State, s.FramesLegal → step s = .next t → t.FramesLegal

/-- R24, R26, R36: every step keeps every frame the reset frame or the frame of some valid civil time. -/
def Obligations.StepKeepsFramesEncoded : Prop :=
  ∀ s t : State, s.FramesEncoded → step s = .next t → t.FramesEncoded

/-- Both invariants hold at reset. -/
def Obligations.ResetFramesMeetInvariants : Prop :=
  State.reset.FramesLegal ∧ State.reset.FramesEncoded

/-! ### The calendar -/

/-- R100, R101, R103: what a valid civil time is. -/
def Obligations.ValidTimeBounds : Prop :=
  ∀ t : CivilTime, validTime t = true ↔
    t.minute ≤ 59 ∧ t.hour ≤ 23 ∧ t.second ≤ 60 ∧ t.month ≤ 11 ∧ t.wday ≤ 6 ∧ t.year ≤ 65535 ∧
      t.yday ≤ (if isLeap t.year then 365 else 364) ∧ 1 ≤ t.mday ∧
      ∃ d, (monthLengths t.year)[t.month]? = some d ∧ t.mday ≤ d

/-- R108: the roll-overs of `AddMinute`, each with everything it leaves alone. -/
def Obligations.AddMinuteRollsOver : Prop :=
  ∀ t : CivilTime,
    (t.minute ≠ 59 → addMinute t = { t with minute := t.minute + 1 }) ∧
    (t.minute = 59 → t.hour ≠ 23 → addMinute t = { t with minute := 0, hour := t.hour + 1 }) ∧
    (t.minute = 59 → t.hour = 23 → t.mday < daysInMonth t.month t.year → addMinute t =
      { t with minute := 0, hour := 0, mday := t.mday + 1, wday := (t.wday + 1) % 7, yday := t.yday + 1 }) ∧
    (t.minute = 59 → t.hour = 23 → daysInMonth t.month t.year ≤ t.mday → t.month ≠ 11 → addMinute t =
      { t with minute := 0, hour := 0, mday := 1, wday := (t.wday + 1) % 7, yday := t.yday + 1,
               month := t.month + 1 }) ∧
    (t.minute = 59 → t.hour = 23 → daysInMonth t.month t.year ≤ t.mday → t.month = 11 → addMinute t =
      { t with minute := 0, hour := 0, mday := 1, wday := (t.wday + 1) % 7, yday := 0, month := 0,
               year := (t.year + 1) % 65536 })

/-- R110: `AddMinute` of a valid civil time is valid but perhaps for its day of year, and valid altogether when the day
of year given agrees with the date. -/
def Obligations.AddMinuteKeepsValid : Prop :=
  ∀ t : CivilTime, validTime t = true →
    validTime { addMinute t with yday := 0 } = true ∧
    (t.yday + 1 = ((monthLengths t.year).take t.month).sum + t.mday → validTime (addMinute t) = true)

/-- The upcoming minute is one minute later on a calendar that counts minutes from year 0, but for the last minute of
year 65535, where the 16-bit year wraps. -/
def Obligations.AddMinuteIsOneMinuteLater : Prop :=
  ∀ t : CivilTime, validTime t = true →
    ¬(t.year = 65535 ∧ t.month = 11 ∧ t.mday = 31 ∧ t.hour = 23 ∧ t.minute = 59) →
    minuteNumber (addMinute t) = minuteNumber t + 1
end

