-- ==== Sys2Proof/Laws/Decode.lean ====
section
/-! SUPPORT. The fields of a command word as numbers, and when each decoding function refuses. -/

namespace Sys2Proof

theorem cmdOp_toNat (c : Cmd) : (cmdOp c).toNat = c.toNat / 4096 := by
  have := c.isLt
  simp [cmdOp, BitVec.extractLsb'_toNat, Nat.shiftRight_eq_div_pow]
  omega

theorem cmdStd_toNat (c : Cmd) : (cmdStd c).toNat = c.toNat / 1024 % 4 := by
  simp [cmdStd, BitVec.extractLsb'_toNat, Nat.shiftRight_eq_div_pow]

theorem cmdD_toNat (c : Cmd) : (cmdD c).toNat = c.toNat / 512 % 2 := by
  simp [cmdD, BitVec.extractLsb'_toNat, Nat.shiftRight_eq_div_pow]

theorem cmdM_toNat (c : Cmd) : (cmdM c).toNat = c.toNat / 256 % 2 := by
  simp [cmdM, BitVec.extractLsb'_toNat, Nat.shiftRight_eq_div_pow]

theorem cmdReserved_toNat (c : Cmd) : (cmdReserved c).toNat = c.toNat % 256 := by
  simp [cmdReserved, BitVec.extractLsb'_toNat, Nat.shiftRight_eq_div_pow]

theorem cmdMiddle_toNat (c : Cmd) : (c.extractLsb' 9 3).toNat = c.toNat / 512 % 8 := by
  simp [BitVec.extractLsb'_toNat, Nat.shiftRight_eq_div_pow]

/-- A word is not zero exactly when its number is not. -/
theorem ne_zero_iff_toNat {w : Nat} (x : BitVec w) : x ≠ 0 ↔ x.toNat ≠ 0 := by
  constructor
  · intro h h'
    exact h (BitVec.eq_of_toNat_eq (by simpa using h'))
  · rintro h rfl
    simp at h

theorem eq_one_iff_toNat (x : BitVec 1) : x = 1 ↔ x.toNat = 1 := by
  revert x
  decide

/-- When a word of a class without standards is refused (R73). -/
theorem decodePlain_error_iff (c : Cmd) (i : Instr) :
    (∃ e, decodePlain c i = .error e) ↔ c.toNat / 512 % 8 ≠ 0 ∨ c.toNat / 256 % 2 ≠ 0 := by
  unfold decodePlain
  simp only [ne_zero_iff_toNat, cmdMiddle_toNat, cmdM_toNat]
  split_ifs <;> simp_all

/-- When a word of OP 4 is refused (R73). -/
theorem decodeParity_error_iff (c : Cmd) (even odd : Instr) :
    (∃ e, decodeParity c even odd = .error e) ↔ c.toNat / 512 % 8 ≠ 0 := by
  unfold decodeParity
  simp only [ne_zero_iff_toNat, cmdMiddle_toNat]
  split_ifs <;> simp_all

/-- When a word of OP 5 to 8 is refused (R73). -/
theorem decodeStandardForm_error_iff (c : Cmd) (wwvb dcf77 jjy msf sel : Instr) :
    (∃ e, decodeStandardForm c wwvb dcf77 jjy msf sel = .error e) ↔
      c.toNat / 256 % 2 ≠ 0 ∨ (c.toNat / 512 % 2 = 1 ∧ c.toNat / 1024 % 4 ≠ 0) := by
  unfold decodeStandardForm
  simp only [ne_zero_iff_toNat, eq_one_iff_toNat, cmdM_toNat, cmdD_toNat, cmdStd_toNat]
  split_ifs with h1 h2 h3
  · simp_all
  · simp_all
  · simp_all
  · cases stdOfCode (cmdStd c) <;> simp_all

/-- What a word of OP 5 to 8 can decode to: the form of one standard with its word, or the dispatch form. -/
theorem decodeStandardForm_ok {c : Cmd} {wwvb dcf77 jjy msf sel i : Instr}
    (h : decodeStandardForm c wwvb dcf77 jjy msf sel = .ok i) :
    c.toNat / 256 % 2 = 0 ∧
      ((c.toNat / 512 % 8 = 0 ∧ i = wwvb) ∨ (c.toNat / 512 % 8 = 2 ∧ i = dcf77) ∨
        (c.toNat / 512 % 8 = 4 ∧ i = jjy) ∨ (c.toNat / 512 % 8 = 6 ∧ i = msf) ∨
        (c.toNat / 512 % 8 = 1 ∧ i = sel)) := by
  unfold decodeStandardForm at h
  simp only [ne_zero_iff_toNat, eq_one_iff_toNat, cmdM_toNat, cmdD_toNat, cmdStd_toNat, stdOfCode] at h
  split_ifs at h with h1 h2 h3
  · simp only [Except.ok.injEq] at h
    refine ⟨by omega, ?_⟩
    have : c.toNat / 512 % 8 = 1 := by omega
    simp [this, h]
  · have h4 : c.toNat / 1024 % 4 < 4 := Nat.mod_lt _ (by decide)
    refine ⟨by omega, ?_⟩
    generalize hs : c.toNat / 1024 % 4 = q at h h4
    interval_cases q <;> simp only [Except.ok.injEq] at h
    · have : c.toNat / 512 % 8 = 0 := by omega
      simp [this, h]
    · have : c.toNat / 512 % 8 = 2 := by omega
      simp [this, h]
    · have : c.toNat / 512 % 8 = 4 := by omega
      simp [this, h]
    · have : c.toNat / 512 % 8 = 6 := by omega
      simp [this, h]

/-- What a word of OP 4 can decode to. -/
theorem decodeParity_ok {c : Cmd} {even odd i : Instr} (h : decodeParity c even odd = .ok i) :
    c.toNat / 512 % 8 = 0 ∧ ((c.toNat / 256 % 2 = 0 ∧ i = even) ∨ (c.toNat / 256 % 2 = 1 ∧ i = odd)) := by
  unfold decodeParity at h
  have hz : cmdM c = 0 ↔ c.toNat / 256 % 2 = 0 := by
    rw [← cmdM_toNat, ← not_iff_not]
    exact ne_zero_iff_toNat (cmdM c)
  simp only [ne_zero_iff_toNat, cmdMiddle_toNat, hz] at h
  split_ifs at h with h1 h2 <;> simp only [Except.ok.injEq] at h
  · exact ⟨by omega, .inl ⟨h2, h.symm⟩⟩
  · exact ⟨by omega, .inr ⟨by omega, h.symm⟩⟩

/-- What a word of any other class can decode to. -/
theorem decodePlain_ok {c : Cmd} {i j : Instr} (h : decodePlain c i = .ok j) :
    c.toNat / 512 % 8 = 0 ∧ c.toNat / 256 % 2 = 0 ∧ j = i := by
  unfold decodePlain at h
  simp only [ne_zero_iff_toNat, cmdMiddle_toNat, cmdM_toNat] at h
  split_ifs at h with h1 h2
  simp only [Except.ok.injEq] at h
  exact ⟨by omega, by omega, h.symm⟩

/-! ### Operand fields -/

theorem CivilTime.fits_iff (t : CivilTime) :
    t.fits = true ↔ t.minute < 64 ∧ t.hour < 32 ∧ t.second < 64 ∧ t.mday < 32 ∧ t.yday < 512 ∧
      t.month < 16 ∧ t.wday < 8 ∧ t.year < 65536 := by
  simp [CivilTime.fits, and_assoc]

/-- The civil-time word as a number: the weighted sum of its fields (R66). -/
theorem opaOfCivilTime_toNat {t : CivilTime} (h : t.fits = true) :
    (opaOfCivilTime t).toNat =
      t.minute + 64 * t.hour + 2048 * t.second + 131072 * t.mday + 4194304 * t.yday +
        2147483648 * t.month + 34359738368 * t.wday + 274877906944 * t.isdst.toNat +
        549755813888 * t.todayDST.toNat + 1099511627776 * t.tomorrowDST.toNat +
        2199023255552 * t.year := by
  rw [CivilTime.fits_iff] at h
  have ha := Bool.toNat_lt t.isdst
  have hb := Bool.toNat_lt t.todayDST
  have hc := Bool.toNat_lt t.tomorrowDST
  unfold opaOfCivilTime
  rw [BitVec.toNat_ofNat]
  simp only [Nat.shiftLeft_eq]
  omega

/-- A bit of a word, as a digit of its number. -/
theorem getLsbD_eq_decide {w : Nat} (a : BitVec w) (k : Nat) :
    a.getLsbD k = decide (a.toNat / 2 ^ k % 2 = 1) := by
  simp [BitVec.getLsbD, Nat.testBit_eq_decide_div_mod_eq]

/-- Reading back the civil-time word of a civil time that fits (R66). -/
theorem civilTimeOfOpa_opaOfCivilTime {t : CivilTime} (h : t.fits = true) :
    civilTimeOfOpa (opaOfCivilTime t) = t := by
  have e := opaOfCivilTime_toNat h
  rw [CivilTime.fits_iff] at h
  have ha := Bool.toNat_lt t.isdst
  have hb := Bool.toNat_lt t.todayDST
  have hc := Bool.toNat_lt t.tomorrowDST
  have flag : ∀ (b : Bool) (x : Nat), x = b.toNat → decide (x = 1) = b := by
    rintro b x rfl
    cases b <;> rfl
  generalize opaOfCivilTime t = a at e
  obtain ⟨y, mo, md, ho, mi, se, wd, yd, b1, b2, b3⟩ := t
  simp only [civilTimeOfOpa, BitVec.extractLsb'_toNat, Nat.shiftRight_eq_div_pow, CivilTime.mk.injEq,
    getLsbD_eq_decide] at *
  refine ⟨?_, ?_, ?_, ?_, ?_, ?_, ?_, ?_, flag _ _ ?_, flag _ _ ?_, flag _ _ ?_⟩ <;> omega

/-- The civil time of any wide operand fits. -/
theorem civilTimeOfOpa_fits (a : Opa) : (civilTimeOfOpa a).fits = true := by
  simp only [CivilTime.fits, Bool.and_eq_true, decide_eq_true_eq]
  refine ⟨⟨⟨⟨⟨⟨⟨?_, ?_⟩, ?_⟩, ?_⟩, ?_⟩, ?_⟩, ?_⟩, ?_⟩ <;> exact BitVec.isLt _

/-- The index of any narrow operand fits. -/
theorem opbIndex_fits (b : Opb) : indexFits (opbIndex b) = true := by
  have h1 := @BitVec.toInt_lt 16 b
  have h2 := @BitVec.le_toInt 16 b
  simp only [indexFits, Bool.and_eq_true, decide_eq_true_eq]
  unfold opbIndex
  constructor <;> norm_num at * <;> omega

/-- Reading back a signed index that fits (R64). -/
theorem opbIndex_ofInt {index : Int} (h : indexFits index = true) : opbIndex (BitVec.ofInt 16 index) = index := by
  simp only [indexFits, Bool.and_eq_true, decide_eq_true_eq] at h
  unfold opbIndex
  rw [BitVec.toInt_ofInt, Int.bmod_eq_of_le] <;> norm_num at * <;> omega

/-- Reading back the two ends of a range that fit (R65). -/
theorem opbFrom_opbTo {lo hi : Nat} (hlo : lo < 64) (hhi : hi < 64) :
    opbFrom (BitVec.ofNat 16 (hi <<< 8 + lo)) = lo ∧ opbTo (BitVec.ofNat 16 (hi <<< 8 + lo)) = hi := by
  simp only [opbFrom, opbTo, BitVec.extractLsb'_toNat, Nat.shiftRight_eq_div_pow, BitVec.toNat_ofNat,
    Nat.shiftLeft_eq]
  omega

/-- Reading back a millisecond offset that fits (R67). -/
theorem opaMs_ofNat {ms : Nat} (h : ms < 65536) : opaMs (BitVec.ofNat 64 ms) = ms := by
  simp only [opaMs, BitVec.extractLsb'_toNat, Nat.shiftRight_eq_div_pow, BitVec.toNat_ofNat]
  omega

end Sys2Proof
end

