-- ==== Sys2Proof/Laws/State.lean ====
section
/-! SUPPORT. One lemma per field per update of the state, so that no later proof unfolds a record update. -/

namespace Sys2Proof.Machine

variable (s : State)

@[simp] theorem State.setSel_frameWwvb (v : BitVec 2) : (s.setSel v).frameWwvb = s.frameWwvb := rfl
@[simp] theorem State.setSel_frameDcf77 (v : BitVec 2) : (s.setSel v).frameDcf77 = s.frameDcf77 := rfl
@[simp] theorem State.setSel_frameJjy (v : BitVec 2) : (s.setSel v).frameJjy = s.frameJjy := rfl
@[simp] theorem State.setSel_frameMsf (v : BitVec 2) : (s.setSel v).frameMsf = s.frameMsf := rfl
@[simp] theorem State.setSel_sel (v : BitVec 2) : (s.setSel v).sel = v := rfl
@[simp] theorem State.setSel_jjyf (v : BitVec 2) : (s.setSel v).jjyf = s.jjyf := rfl
@[simp] theorem State.setSel_events (v : BitVec 2) : (s.setSel v).events = s.events := rfl
@[simp] theorem State.setSel_responses (v : BitVec 2) : (s.setSel v).responses = s.responses := rfl
@[simp] theorem State.setSel_frame (v : BitVec 2) (std : Std) : (s.setSel v).frame std = s.frame std := by
  cases std <;> rfl

@[simp] theorem State.setJjyf_frameWwvb (f : BitVec 1) : (s.setJjyf f).frameWwvb = s.frameWwvb := rfl
@[simp] theorem State.setJjyf_frameDcf77 (f : BitVec 1) : (s.setJjyf f).frameDcf77 = s.frameDcf77 := rfl
@[simp] theorem State.setJjyf_frameJjy (f : BitVec 1) : (s.setJjyf f).frameJjy = s.frameJjy := rfl
@[simp] theorem State.setJjyf_frameMsf (f : BitVec 1) : (s.setJjyf f).frameMsf = s.frameMsf := rfl
@[simp] theorem State.setJjyf_sel (f : BitVec 1) : (s.setJjyf f).sel = s.sel := rfl
@[simp] theorem State.setJjyf_jjyf (f : BitVec 1) : (s.setJjyf f).jjyf = f := rfl
@[simp] theorem State.setJjyf_events (f : BitVec 1) : (s.setJjyf f).events = s.events := rfl
@[simp] theorem State.setJjyf_responses (f : BitVec 1) : (s.setJjyf f).responses = s.responses := rfl
@[simp] theorem State.setJjyf_frame (f : BitVec 1) (std : Std) : (s.setJjyf f).frame std = s.frame std := by
  cases std <;> rfl

@[simp] theorem State.respond_frameWwvb (status : BitVec 1) (res : Res) : (s.respond status res).frameWwvb = s.frameWwvb := rfl
@[simp] theorem State.respond_frameDcf77 (status : BitVec 1) (res : Res) : (s.respond status res).frameDcf77 = s.frameDcf77 := rfl
@[simp] theorem State.respond_frameJjy (status : BitVec 1) (res : Res) : (s.respond status res).frameJjy = s.frameJjy := rfl
@[simp] theorem State.respond_frameMsf (status : BitVec 1) (res : Res) : (s.respond status res).frameMsf = s.frameMsf := rfl
@[simp] theorem State.respond_sel (status : BitVec 1) (res : Res) : (s.respond status res).sel = s.sel := rfl
@[simp] theorem State.respond_jjyf (status : BitVec 1) (res : Res) : (s.respond status res).jjyf = s.jjyf := rfl
@[simp] theorem State.respond_events (status : BitVec 1) (res : Res) : (s.respond status res).events = s.events := rfl
@[simp] theorem State.respond_responses (status : BitVec 1) (res : Res) : (s.respond status res).responses = s.responses ++ [{ status := status, res := res }] := rfl
@[simp] theorem State.respond_frame (status : BitVec 1) (res : Res) (std : Std) : (s.respond status res).frame std = s.frame std := by
  cases std <;> rfl

@[simp] theorem State.frameWrite_sel (std : Std) (F : Frame) : (s.frameWrite std F).sel = s.sel := by
  cases std <;> rfl
@[simp] theorem State.frameWrite_jjyf (std : Std) (F : Frame) : (s.frameWrite std F).jjyf = s.jjyf := by
  cases std <;> rfl
@[simp] theorem State.frameWrite_events (std : Std) (F : Frame) : (s.frameWrite std F).events = s.events := by
  cases std <;> rfl
@[simp] theorem State.frameWrite_responses (std : Std) (F : Frame) : (s.frameWrite std F).responses = s.responses := by
  cases std <;> rfl

/-- Reading the frame just written. -/
@[simp] theorem State.frameWrite_frame_same (std : Std) (F : Frame) : (s.frameWrite std F).frame std = F := by
  cases std <;> rfl

/-- Writing one standard's frame leaves every other standard's (R23). -/
theorem State.frameWrite_frame_other {std other : Std} (h : other ≠ std) (F : Frame) :
    (s.frameWrite std F).frame other = s.frame other := by
  cases std <;> cases other <;> first | rfl | exact absurd rfl h

@[simp] theorem State.frame_wwvb : s.frame .wwvb = s.frameWwvb := rfl
@[simp] theorem State.frame_dcf77 : s.frame .dcf77 = s.frameDcf77 := rfl
@[simp] theorem State.frame_jjy : s.frame .jjy = s.frameJjy := rfl
@[simp] theorem State.frame_msf : s.frame .msf = s.frameMsf := rfl

@[simp] theorem State.setSel_live (v : BitVec 2) : (s.setSel v).live = stdOfCode v := rfl
@[simp] theorem State.setJjyf_live (f : BitVec 1) : (s.setJjyf f).live = s.live := rfl
@[simp] theorem State.respond_live (status : BitVec 1) (res : Res) : (s.respond status res).live = s.live := rfl
@[simp] theorem State.frameWrite_live (std : Std) (F : Frame) : (s.frameWrite std F).live = s.live := by
  cases std <;> rfl

/-- Two states with the same frames, registers and ports are one. -/
theorem State.ext_fields {s t : State} (hf : ∀ std, s.frame std = t.frame std) (hs : s.sel = t.sel)
    (hj : s.jjyf = t.jjyf) (he : s.events = t.events) (hr : s.responses = t.responses) : s = t := by
  have h0 := hf .wwvb
  have h1 := hf .dcf77
  have h2 := hf .jjy
  have h3 := hf .msf
  cases s
  cases t
  simp_all

end Sys2Proof.Machine
end

