-- ==== Sys2Proof/Laws/Ops.lean ====
section
/-! SUPPORT. One lemma per shared operation: everything it can do. -/

namespace Sys2Proof.Machine

variable {s t : State}

/-- An answer is one next state: the same state with one OK response more. -/
theorem answer_eq (s : State) (res : Res) : answer s res = .next (s.respond 0 res) := rfl

/-- What an answer can be: the next state alone. -/
theorem answer_next_iff {res : Res} : answer s res = .next t ↔ t = s.respond 0 res := by
  simp [answer_eq, eq_comm]

theorem raiseIllegal_eq (s : State) : raiseIllegal s = .next (s.respond 1 0) := rfl

theorem idle_eq (s : State) : idle s = .next s := rfl

theorem takeEvent_nil (h : s.events = []) : s.takeEvent = none := by
  simp [State.takeEvent, h]

theorem takeEvent_cons {e : HostEvent} {rest : List HostEvent} (h : s.events = e :: rest) :
    s.takeEvent = some (e, { s with events := rest }) := by
  simp [State.takeEvent, h]

/-- Reading an entry in range (R13). -/
theorem frameRead_in {std : Std} {k : Nat} (h : k < 60) :
    s.frameRead std k = (s.frame std)[k] := by
  have : (0 : Int) ≤ k ∧ (k : Int) ≤ 59 := by omega
  simp [State.frameRead, this]

/-- Reading outside 0..59 (R42). -/
theorem frameRead_out {std : Std} {index : Int} (h : index < 0 ∨ 59 < index) :
    s.frameRead std index = Sym.zero := by
  have : ¬(0 ≤ index ∧ index ≤ 59) := by omega
  simp [State.frameRead, this]

/-- A read sees only the frame of its standard. -/
theorem frameRead_congr {std : Std} (h : s.frame std = t.frame std) (index : Int) :
    s.frameRead std index = t.frameRead std index := by
  simp [State.frameRead, h]

/-- The four values of `SEL` and the standard each names (R60, R209). -/
theorem live_cases (s : State) :
    (s.sel = 0 ∧ s.live = .wwvb) ∨ (s.sel = 1 ∧ s.live = .dcf77) ∨ (s.sel = 2 ∧ s.live = .jjy) ∨
      (s.sel = 3 ∧ s.live = .msf) := by
  have h : ∀ v : BitVec 2, (v = 0 ∧ stdOfCode v = .wwvb) ∨ (v = 1 ∧ stdOfCode v = .dcf77) ∨
      (v = 2 ∧ stdOfCode v = .jjy) ∨ (v = 3 ∧ stdOfCode v = .msf) := by decide
  exact h s.sel

end Sys2Proof.Machine
end

