-- ==== Sys2Proof/Laws/Exec.lean ====
section
/-! SUPPORT. What an instruction can do and what a step can do, said once: every invariant is derived from these. -/

namespace Sys2Proof.Machine

variable {s t : State}

/-- The three ways an instruction can change the core before it answers (R39). -/
inductive Change (s : State) : State → Prop where
  /-- Nothing changes. -/
  | none : Change s s
  /-- One frame becomes the frame of a valid civil time. -/
  | frame (std : Std) (c : CivilTime) (hc : validTime c = true) : Change s (s.frameWrite std (frameOf std c))
  /-- `SEL` is written. -/
  | sel (v : BitVec 2) : Change s (s.setSel v)
  /-- `JJYF` is written. -/
  | jjyf (f : BitVec 1) : Change s (s.setJjyf f)

/-- What an `ENC` can do: write its frame and answer, or fault (R129, R225). -/
theorem encodeMinute_cases (std : Std) (F : CivilTime → Frame) (c : CivilTime) (s : State) :
    (validTime c = true ∧ encodeMinute std F c s = .next ((s.frameWrite std (F c)).respond 0 0)) ∨
      (validTime c = false ∧ encodeMinute std F c s = .fault .invalidCivilTime) := by
  cases h : validTime c
  · exact .inr ⟨rfl, by simp [encodeMinute, h]⟩
  · exact .inl ⟨rfl, by simp [encodeMinute, h, answer_eq]⟩

theorem encodeMinute_next {std : Std} {F : CivilTime → Frame} {c : CivilTime}
    (h : encodeMinute std F c s = .next t) :
    validTime c = true ∧ t = (s.frameWrite std (F c)).respond 0 0 := by
  rcases encodeMinute_cases std F c s with ⟨hv, he⟩ | ⟨_, he⟩
  · rw [he] at h
    exact ⟨hv, by simpa [eq_comm] using h⟩
  · rw [he] at h
    cases h

theorem encodeMinute_change {std : Std} {c : CivilTime} (h : encodeMinute std (frameOf std) c s = .next t) :
    ∃ u res, Change s u ∧ t = u.respond 0 res := by
  obtain ⟨hv, rfl⟩ := encodeMinute_next h
  exact ⟨_, 0, .frame std c hv, rfl⟩

theorem answer_change {res : Res} (h : answer s res = .next t) : ∃ u res, Change s u ∧ t = u.respond 0 res :=
  ⟨s, res, .none, answer_next_iff.mp h⟩

/-- The dispatch form of `ENC` is the `ENC` of the live standard (R212). -/
theorem execEncSel_eq (c : CivilTime) (s : State) :
    execEncSel c s = encodeMinute s.live (frameOf s.live) c s := by
  unfold execEncSel
  cases s.live <;> rfl

/-- The inversion of `exec`: a next state is one of the changes, and one OK response (R39, R71). -/
theorem exec_cases {i : Instr} (h : exec i s = .next t) : ∃ u res, Change s u ∧ t = u.respond 0 res := by
  cases i <;> simp only [exec] at h
  case encWwvb c => exact encodeMinute_change (std := .wwvb) h
  case encDcf77 c => exact encodeMinute_change (std := .dcf77) h
  case encJjy c => exact encodeMinute_change (std := .jjy) h
  case encMsf c => exact encodeMinute_change (std := .msf) h
  case encSel c => exact encodeMinute_change (execEncSel_eq c s ▸ h)
  case setSel v => exact ⟨_, 0, .sel v, answer_next_iff.mp h⟩
  case setJjyf f => exact ⟨_, 0, .jjyf f, answer_next_iff.mp h⟩
  case lvlSel sym ms =>
    unfold execLvlSel at h
    split at h <;> exact answer_change h
  case freqSel =>
    unfold execFreqSel at h
    split at h <;> exact answer_change h
  all_goals exact answer_change h

/-- No instruction is refused. -/
theorem exec_not_refused (i : Instr) (s : State) (r : Refusal) : exec i s ≠ .refused r := by
  have henc : ∀ std c, encodeMinute std (frameOf std) c s ≠ .refused r := by
    intro std c
    rcases encodeMinute_cases std (frameOf std) c s with ⟨_, he⟩ | ⟨_, he⟩ <;> simp [he]
  cases i <;> simp only [exec]
  case encWwvb c => exact henc .wwvb c
  case encDcf77 c => exact henc .dcf77 c
  case encJjy c => exact henc .jjy c
  case encMsf c => exact henc .msf c
  case encSel c => exact execEncSel_eq c s ▸ henc _ c
  case lvlSel sym ms => unfold execLvlSel; split <;> simp [execLvlWwvb, execLvlDcf77, execLvlJjy, execLvlMsf, answerLevel, answer_eq]
  case freqSel => unfold execFreqSel; split <;> simp [answer_eq]
  all_goals exact fun h => by cases h

/-- A change leaves the ports alone. -/
theorem Change.ports {u : State} (h : Change s u) : u.events = s.events ∧ u.responses = s.responses := by
  cases h <;> simp

/-- The inversion of `step`: idle, a reset, an ILLEGAL answer, or an instruction (R52). -/
theorem step_cases (h : step s = .next t) :
    (s.events = [] ∧ t = s) ∨
      (∃ rest, s.events = .reset :: rest ∧ resetCore { s with events := rest } = .next t) ∨
      (∃ r rest e, s.events = .request r :: rest ∧ decode r = .error e ∧
        t = State.respond { s with events := rest } 1 0) ∨
      (∃ r rest i, s.events = .request r :: rest ∧ decode r = .ok i ∧
        exec i { s with events := rest } = .next t) := by
  cases he : s.events with
  | nil =>
    simp [step, takeEvent_nil he, idle_eq] at h
    exact .inl ⟨rfl, h.symm⟩
  | cons e rest =>
    right
    simp only [step, takeEvent_cons he] at h
    cases e with
    | reset => exact .inl ⟨rest, rfl, h⟩
    | request r =>
      right
      cases hd : decode r with
      | error e =>
        simp [hd, raiseIllegal_eq] at h
        exact .inl ⟨r, rest, e, rfl, hd, h.symm⟩
      | ok i => exact .inr ⟨r, rest, i, rfl, hd, by simpa [hd] using h⟩

end Sys2Proof.Machine
end

