-- ==== Sys2Proof/Laws/Operands.lean ====
section
/-! SUPPORT. The bits and values of the packing functions, field placement and range parity. -/

namespace Sys2Proof.Machine

theorem units_lt (n : Nat) : units n < 10 := Nat.mod_lt _ (by decide)
theorem tens_lt (n : Nat) : tens n < 10 := Nat.mod_lt _ (by decide)
theorem hundreds_lt (n : Nat) : hundreds n < 10 := Nat.mod_lt _ (by decide)

/-- A digit has no bit above its nibble. -/
theorem digit_testBit {d k : Nat} (hd : d < 10) (hk : 4 ≤ k) : d.testBit k = false := by
  apply Nat.testBit_lt_two_pow
  calc d < 2 ^ 4 := by omega
    _ ≤ 2 ^ k := Nat.pow_le_pow_right (by decide) hk

/-- The bits of plain BCD (R87). -/
theorem bcd_getLsbD (n k : Nat) :
    (bcd n).getLsbD k = if k < 4 then (units n).testBit k else decide (k < 8) && (tens n).testBit (k - 4) := by
  have hu := @digit_testBit (units n) k (units_lt n)
  have ht := @digit_testBit (tens n) (k - 4) (tens_lt n)
  simp only [bcd, BitVec.getLsbD_or, BitVec.getLsbD_shiftLeft, BitVec.getLsbD_ofNat]
  by_cases h4 : k < 4
  · have : k < 8 := by omega
    simp [h4, this]
  · have h4' : 4 ≤ k := by omega
    by_cases h8 : k < 8 <;> simp [h4, h8, hu h4']
    omega

/-- The bits of padded BCD: digit groups five apart, the pads 0 (R90). -/
theorem paddedBcd_getLsbD (n k : Nat) :
    (paddedBcd n).getLsbD k =
      if k < 5 then (units n).testBit k
      else if k < 10 then (tens n).testBit (k - 5)
      else decide (k < 14) && (hundreds n).testBit (k - 10) := by
  have hu := @digit_testBit (units n) k (units_lt n)
  have ht := @digit_testBit (tens n) (k - 5) (tens_lt n)
  simp only [paddedBcd, BitVec.getLsbD_or, BitVec.getLsbD_shiftLeft, BitVec.getLsbD_ofNat]
  by_cases h5 : k < 5
  · have h14 : k < 14 := by omega
    have h10 : k < 10 := by omega
    simp [h5, h14, h10]
  · have hu' := hu (by omega)
    by_cases h10 : k < 10
    · have h14 : k < 14 := by omega
      have : k - 5 < 14 := by omega
      simp [h5, h10, h14, hu', this]
    · have ht' := ht (by omega)
      by_cases h14 : k < 14
      · have : k - 10 < 14 := by omega
        simp [h5, h10, h14, hu', ht', this]
      · simp [h5, h10, h14]

/-- The value of plain BCD (R87). -/
theorem bcd_toNat (n : Nat) : (bcd n).toNat = 16 * tens n + units n := by
  have h : ∀ t < 10, ∀ u < 10, (BitVec.ofNat 8 t <<< 4 ||| BitVec.ofNat 8 u).toNat = 16 * t + u := by decide
  exact h _ (tens_lt n) _ (units_lt n)

/-- The value of padded BCD (R90). -/
theorem paddedBcd_toNat (n : Nat) : (paddedBcd n).toNat = 1024 * hundreds n + 32 * tens n + units n := by
  have h : ∀ h < 10, ∀ t < 10, ∀ u < 10,
      (BitVec.ofNat 14 h <<< 10 ||| BitVec.ofNat 14 t <<< 5 ||| BitVec.ofNat 14 u).toNat =
        1024 * h + 32 * t + u := by decide
  exact h _ (hundreds_lt n) _ (tens_lt n) _ (units_lt n)

/-- The bits of the reversed byte (R93). -/
theorem reverse8_getLsbD (b : BitVec 8) {k : Nat} (hk : k < 8) :
    (reverse8 b).getLsbD k = b.getLsbD (7 - k) := by
  have h : ∀ b : BitVec 8, ∀ k < 8, (reverse8 b).getLsbD k = b.getLsbD (7 - k) := by decide
  exact h b k hk

/-- A level as a number: 1 or 0 (R71). -/
theorem resOfBool_eq (b : Bool) : resOfBool b = if b then 1 else 0 := by
  cases b <;> rfl

/-- A field's bit at one of its seconds, MSB first (R12). -/
theorem msbFirst_in {n a w k : Nat} {v : BitVec n} (hk : k < w) :
    msbFirst a w v (a + k) = v.getLsbD (w - 1 - k) := by
  simp [msbFirst, hk]

/-- A field's bit at one of its seconds, LSB first (R12). -/
theorem lsbFirst_in {n a w k : Nat} {v : BitVec n} (hk : k < w) :
    lsbFirst a w v (a + k) = v.getLsbD k := by
  simp [lsbFirst, hk]

/-- A field puts nothing outside its seconds. -/
theorem msbFirst_out {n a w s : Nat} {v : BitVec n} (h : s < a ∨ a + w ≤ s) : msbFirst a w v s = false := by
  unfold msbFirst
  rcases h with h | h
  · have : ¬ a ≤ s := by omega
    simp [this]
  · have : ¬ s < a + w := by omega
    simp [this]

/-- A field puts nothing outside its seconds. -/
theorem lsbFirst_out {n a w s : Nat} {v : BitVec n} (h : s < a ∨ a + w ≤ s) : lsbFirst a w v s = false := by
  unfold lsbFirst
  rcases h with h | h
  · have : ¬ a ≤ s := by omega
    simp [this]
  · have : ¬ s < a + w := by omega
    simp [this]

/-- An empty range has no ones (R96). -/
theorem countOnes_empty {f : Nat → Bool} {lo hi : Nat} (h : hi < lo) : countOnes f lo hi = 0 := by
  have : hi + 1 - lo = 0 := by omega
  simp [countOnes, this]

/-- A range's count depends only on the bits in the range. -/
theorem countOnes_congr {f g : Nat → Bool} {lo hi : Nat} (h : ∀ k, lo ≤ k → k ≤ hi → f k = g k) :
    countOnes f lo hi = countOnes g lo hi := by
  unfold countOnes
  congr 1
  apply List.map_congr_left
  intro k hk
  have := List.mem_range.mp hk
  rw [h (lo + k) (by omega) (by omega)]

theorem xorRange_congr {f g : Nat → Bool} {lo hi : Nat} (h : ∀ k, lo ≤ k → k ≤ hi → f k = g k) :
    xorRange f lo hi = xorRange g lo hi := by
  unfold xorRange
  rw [countOnes_congr h]

/-- A data bit's symbol is `ZERO` or `ONE`. -/
theorem dataSym_cases (b : Bool) : dataSym b = Sym.zero ∨ dataSym b = Sym.one := by
  cases b <;> simp [dataSym]

end Sys2Proof.Machine
end

