-- ==== Sys2Proof/Laws/Frames.lean ====
section
/-! SUPPORT. The entries of the four frame functions, and that they hold only the codes of their standard. -/

namespace Sys2Proof.Machine

theorem zeros_getElem {k : Nat} (h : k < 60) : Frame.zeros[k] = Sym.zero := by
  simp [Frame.zeros]

theorem wwvbFrame_getElem (t : CivilTime) {k : Nat} (h : k < 60) :
    (wwvbFrame t)[k] = if wwvbMarker k then Sym.mark else dataSym (wwvbData t k) := by
  simp [wwvbFrame]

theorem dcf77Frame_getElem (t : CivilTime) {k : Nat} (h : k < 60) :
    (dcf77Frame t)[k] = if k = 59 then Sym.idle else dataSym (dcf77Data (addMinute t) k) := by
  simp [dcf77Frame]

theorem jjyFrame_getElem (t : CivilTime) {k : Nat} (h : k < 60) :
    (jjyFrame t)[k] = if jjyMarker k then Sym.mark else dataSym (jjyData t k) := by
  simp [jjyFrame]

theorem msfFrame_getElem (t : CivilTime) {k : Nat} (h : k < 60) :
    (msfFrame t)[k] =
      if k = 0 then Sym.mark else msfSym (msfA (addMinute t) k) (msfB (addMinute t) k) := by
  simp [msfFrame]

/-- The bits of an MSF symbol: bit 0 is channel A, bit 2 is channel B, bit 1 is 0 (R70). -/
theorem msfSym_bits (a b : Bool) :
    (msfSym a b).getLsbD 0 = a ∧ (msfSym a b).getLsbD 1 = false ∧ (msfSym a b).getLsbD 2 = b := by
  cases a <;> cases b <;> decide

/-- Channel B carries a 1 only where channel A's fixed pattern is 1 (R191, R200). -/
theorem msfA_of_msfB {c : CivilTime} {k : Nat} (h : msfB c k = true) : msfA c k = true := by
  have hk : k = 54 ∨ k = 55 ∨ k = 56 ∨ k = 57 ∨ k = 58 := by
    simp [msfB, bitAt] at h
    omega
  rcases hk with rfl | rfl | rfl | rfl | rfl <;> simp [msfA, msbFirst]

end Sys2Proof.Machine
end

