-- ==== Sys2Proof/Laws/PerInstr.lean ====
section
/-! SUPPORT. Per-instruction facts about the syntax. The family LegalCmd: the command word an instruction encodes to
is legal, and its reserved low byte is 0 (R57, R73, R77). -/

namespace Sys2Proof.Laws.LegalCmd

/-- An instruction's command word meets none of the ILLEGAL conditions, and its reserved bits are 0. -/
def Statement (i : Instr) : Prop := (encode i).cmd.isIllegal = false ∧ cmdReserved (encode i).cmd = 0

/-- A known command word settles the statement. -/
theorem of_cmd {i : Instr} {c : Cmd} (h : (encode i).cmd = c)
    (hc : c.isIllegal = false ∧ cmdReserved c = 0) : Statement i := by
  subst h
  exact hc

theorem nop : Statement (.nop) := of_cmd (c := 0x0000) rfl (by decide)
theorem bcd (n : Nat) : Statement (.bcd n) := of_cmd (c := 0x1000) rfl (by decide)
theorem pbcd (n : Nat) : Statement (.pbcd n) := of_cmd (c := 0x2000) rfl (by decide)
theorem rev8 (b : BitVec 8) : Statement (.rev8 b) := of_cmd (c := 0x3000) rfl (by decide)
theorem parE (bits : BitVec 64) (lo hi : Nat) : Statement (.parE bits lo hi) := of_cmd (c := 0x4000) rfl (by decide)
theorem parO (bits : BitVec 64) (lo hi : Nat) : Statement (.parO bits lo hi) := of_cmd (c := 0x4100) rfl (by decide)
theorem encWwvb (t : CivilTime) : Statement (.encWwvb t) := of_cmd (c := 0x5000) rfl (by decide)
theorem symWwvb (index : Int) : Statement (.symWwvb index) := of_cmd (c := 0x6000) rfl (by decide)
theorem lvlWwvb (sym : SymCode) (ms : Nat) : Statement (.lvlWwvb sym ms) := of_cmd (c := 0x7000) rfl (by decide)
theorem freqWwvb : Statement (.freqWwvb) := of_cmd (c := 0x8000) rfl (by decide)
theorem encDcf77 (t : CivilTime) : Statement (.encDcf77 t) := of_cmd (c := 0x5400) rfl (by decide)
theorem symDcf77 (index : Int) : Statement (.symDcf77 index) := of_cmd (c := 0x6400) rfl (by decide)
theorem lvlDcf77 (sym : SymCode) (ms : Nat) : Statement (.lvlDcf77 sym ms) := of_cmd (c := 0x7400) rfl (by decide)
theorem freqDcf77 : Statement (.freqDcf77) := of_cmd (c := 0x8400) rfl (by decide)
theorem encJjy (t : CivilTime) : Statement (.encJjy t) := of_cmd (c := 0x5800) rfl (by decide)
theorem symJjy (index : Int) : Statement (.symJjy index) := of_cmd (c := 0x6800) rfl (by decide)
theorem lvlJjy (sym : SymCode) (ms : Nat) : Statement (.lvlJjy sym ms) := of_cmd (c := 0x7800) rfl (by decide)
theorem freqJjy : Statement (.freqJjy) := of_cmd (c := 0x8800) rfl (by decide)
theorem encMsf (t : CivilTime) : Statement (.encMsf t) := of_cmd (c := 0x5C00) rfl (by decide)
theorem symMsf (index : Int) : Statement (.symMsf index) := of_cmd (c := 0x6C00) rfl (by decide)
theorem lvlMsf (sym : SymCode) (ms : Nat) : Statement (.lvlMsf sym ms) := of_cmd (c := 0x7C00) rfl (by decide)
theorem freqMsf : Statement (.freqMsf) := of_cmd (c := 0x8C00) rfl (by decide)
theorem encSel (t : CivilTime) : Statement (.encSel t) := of_cmd (c := 0x5200) rfl (by decide)
theorem symSel (index : Int) : Statement (.symSel index) := of_cmd (c := 0x6200) rfl (by decide)
theorem lvlSel (sym : SymCode) (ms : Nat) : Statement (.lvlSel sym ms) := of_cmd (c := 0x7200) rfl (by decide)
theorem freqSel : Statement (.freqSel) := of_cmd (c := 0x8200) rfl (by decide)
theorem setSel (v : BitVec 2) : Statement (.setSel v) := of_cmd (c := 0x9000) rfl (by decide)
theorem getSel : Statement (.getSel) := of_cmd (c := 0xA000) rfl (by decide)
theorem setJjyf (f : BitVec 1) : Statement (.setJjyf f) := of_cmd (c := 0xB000) rfl (by decide)
theorem getJjyf : Statement (.getJjyf) := of_cmd (c := 0xC000) rfl (by decide)

end Sys2Proof.Laws.LegalCmd
end

