-- ==== Sys2Proof/Tests/Slice0.lean ====
section
/-! SUPPORT. The model's own tests. Expected values come from the spec's worked words (R82), its test vectors
(`95_test_vectors.md`) or its field tables; the section is named at each. The last part holds a witness for every
statement that has hypotheses. -/

namespace Sys2Proof.Tests

open Sys2Proof Sys2Proof.Machine Sys2Proof.Claims

/-! ### Helpers -/

/-- A request from three numbers. -/
def req (c a b : Nat) : Request :=
  { cmd := BitVec.ofNat 16 c, opa := BitVec.ofNat 64 a, opb := BitVec.ofNat 16 b }

/-- The decoder's answer, an ILLEGAL word as `none`. -/
def decoded (c a b : Nat) : Option Instr :=
  match decode (req c a b) with
  | .ok i => some i
  | .error _ => none

/-- Why a command word is ILLEGAL. -/
def refusedFor (c : Nat) : Option Illegal :=
  match decode (req c 0 0) with
  | .ok _ => none
  | .error e => some e

/-- One step on one request. -/
def send (s : State) (c a b : Nat) : Host.Outcome State Fault Refusal :=
  step { s with events := [.request (req c a b)] }

/-- The next state, if there is one. -/
def after (o : Host.Outcome State Fault Refusal) : Option State :=
  match o with
  | .next t => some t
  | _ => none

/-- (`STATUS`, `RES`) of the last response of the next state. -/
def said (o : Host.Outcome State Fault Refusal) : Option (Nat × Nat) :=
  match o with
  | .next t => t.responses.getLast?.map fun r => (r.status.toNat, r.res.toNat)
  | _ => none

/-- Whether the outcome is `fault InvalidCivilTime`. -/
def faulted (o : Host.Outcome State Fault Refusal) : Bool :=
  match o with
  | .fault .invalidCivilTime => true
  | _ => false

/-- A frame as `95_test_vectors.md` writes it, spaces left out. -/
def codes : List Char → List SymCode
  | [] => []
  | 'M' :: cs => Sym.mark :: codes cs
  | '0' :: cs => Sym.zero :: codes cs
  | '1' :: cs => Sym.one :: codes cs
  | '2' :: cs => Sym.a0b1 :: codes cs
  | '3' :: cs => Sym.a1b1 :: codes cs
  | 'I' :: cs => Sym.idle :: codes cs
  | _ :: cs => codes cs

/-- The frame a step leaves. -/
def frameAfter (std : Std) (o : Host.Outcome State Fault Refusal) : Option (List SymCode) :=
  (after o).map fun t => (t.frame std).toList

/-- The golden-vector time (section 1.1). -/
def golden : CivilTime := { year := 2008, month := 2, mday := 6, hour := 7, minute := 30, wday := 4, yday := 65 }

/-- The last minute of 2025 (section 2.2). -/
def newYear : CivilTime :=
  { year := 2025, month := 11, mday := 31, hour := 23, minute := 59, wday := 3, yday := 364 }

/-- A state in which every field differs from reset: a different code in each frame, `SEL` = JJY, `JJYF` = 1. -/
def busy : State where
  frameWwvb := Vector.replicate 60 Sym.one
  frameDcf77 := Vector.replicate 60 Sym.idle
  frameJjy := Vector.replicate 60 Sym.mark
  frameMsf := Vector.replicate 60 Sym.a1b1
  sel := 2
  jjyf := 1
  events := []
  responses := [{ status := 1, res := 0 }]

/-! ### WellFormed: an ill-formed term for each check, and the largest well-formed one (R64 to R67) -/

theorem test_wf_bcd : Instr.wellFormed (.bcd 65535) = true ∧ Instr.wellFormed (.bcd 65536) = false := by decide
theorem test_wf_pbcd : Instr.wellFormed (.pbcd 65535) = true ∧ Instr.wellFormed (.pbcd 65536) = false := by decide
theorem test_wf_par :
    Instr.wellFormed (.parE 0 63 63) = true ∧ Instr.wellFormed (.parE 0 64 0) = false ∧
    Instr.wellFormed (.parE 0 0 64) = false ∧ Instr.wellFormed (.parO 0 63 63) = true ∧
    Instr.wellFormed (.parO 0 64 0) = false ∧ Instr.wellFormed (.parO 0 0 64) = false := by decide
theorem test_wf_index_high :
    Instr.wellFormed (.symWwvb 32767) = true ∧ Instr.wellFormed (.symWwvb 32768) = false ∧
    Instr.wellFormed (.symDcf77 32768) = false ∧ Instr.wellFormed (.symJjy 32768) = false ∧
    Instr.wellFormed (.symMsf 32768) = false ∧ Instr.wellFormed (.symSel 32768) = false := by decide
theorem test_wf_index_low :
    Instr.wellFormed (.symWwvb (-32768)) = true ∧ Instr.wellFormed (.symWwvb (-32769)) = false ∧
    Instr.wellFormed (.symDcf77 (-32769)) = false ∧ Instr.wellFormed (.symJjy (-32769)) = false ∧
    Instr.wellFormed (.symMsf (-32769)) = false ∧ Instr.wellFormed (.symSel (-32769)) = false := by decide
theorem test_wf_ms :
    Instr.wellFormed (.lvlWwvb 7 65535) = true ∧ Instr.wellFormed (.lvlWwvb 0 65536) = false ∧
    Instr.wellFormed (.lvlDcf77 0 65536) = false ∧ Instr.wellFormed (.lvlJjy 0 65536) = false ∧
    Instr.wellFormed (.lvlMsf 0 65536) = false ∧ Instr.wellFormed (.lvlSel 0 65536) = false := by decide
theorem test_wf_time_largest :
    CivilTime.fits { minute := 63, hour := 31, second := 63, mday := 31, yday := 511, month := 15, wday := 7,
                     year := 65535, isdst := true, todayDST := true, tomorrowDST := true } = true := by decide
theorem test_wf_time_each_field :
    CivilTime.fits { minute := 64 } = false ∧ CivilTime.fits { hour := 32 } = false ∧
    CivilTime.fits { second := 64 } = false ∧ CivilTime.fits { mday := 32 } = false ∧
    CivilTime.fits { yday := 512 } = false ∧ CivilTime.fits { month := 16 } = false ∧
    CivilTime.fits { wday := 8 } = false ∧ CivilTime.fits { year := 65536 } = false := by decide
theorem test_wf_enc :
    Instr.wellFormed (.encWwvb { minute := 64 }) = false ∧ Instr.wellFormed (.encDcf77 { minute := 64 }) = false ∧
    Instr.wellFormed (.encJjy { minute := 64 }) = false ∧ Instr.wellFormed (.encMsf { minute := 64 }) = false ∧
    Instr.wellFormed (.encSel { minute := 64 }) = false := by decide

/-! ### Decoding: every constructor from a word written out from R57, R59 and R62 to R67 -/

theorem test_decode_nop : decoded 0x0000 0xFFFFFFFFFFFFFFFF 0xFFFF = some .nop := by decide
theorem test_decode_bcd : decoded 0b0001_00_0_0_00000000 0 0xFFFF = some (.bcd 65535) := by decide
theorem test_decode_pbcd : decoded 0b0010_00_0_0_00000000 0 0x016E = some (.pbcd 366) := by decide
theorem test_decode_rev8 : decoded 0b0011_00_0_0_00000000 0 0x1234 = some (.rev8 0x34) := by decide
theorem test_decode_parE : decoded 0b0100_00_0_0_00000000 0xFF 0xC7C0 = some (.parE 0xFF 0 7) := by decide
theorem test_decode_parO : decoded 0b0100_00_0_1_00000000 0xFF 0x0305 = some (.parO 0xFF 5 3) := by decide
theorem test_decode_encWwvb : decoded 0b0101_00_0_0_00000000 0x000FB021104C01DE 0 = some (.encWwvb golden) := by
  decide
theorem test_decode_encDcf77 : decoded 0b0101_01_0_0_00000000 0x000FD21DDB3E05FB 0 = some (.encDcf77 newYear) := by
  decide
/-- 2024-06-15 13:29, every flag 1 (section 2.3), the reserved operand bits set. -/
theorem test_decode_encJjy : decoded 0b0101_10_0_0_00000000 0xFE0FD1F2A99E035D 0xFFFF =
    some (.encJjy { year := 2024, month := 5, mday := 15, hour := 13, minute := 29, wday := 6, yday := 166,
                    isdst := true, todayDST := true, tomorrowDST := true }) := by decide
/-- 2025-03-09 01:59, today 0 and tomorrow 1 (section 2.3). -/
theorem test_decode_encMsf : decoded 0b0101_11_0_0_00000000 0x000FD30110D2007B 0 =
    some (.encMsf { year := 2025, month := 2, mday := 9, hour := 1, minute := 59, yday := 67,
                    tomorrowDST := true }) := by decide
theorem test_decode_encSel : decoded 0b0101_00_1_0_00000000 0x000FB021104C01DE 0 = some (.encSel golden) := by
  decide
theorem test_decode_symWwvb : decoded 0b0110_00_0_0_00000000 0 0x8000 = some (.symWwvb (-32768)) := by decide
theorem test_decode_symDcf77 : decoded 0b0110_01_0_0_00000000 0 0x003B = some (.symDcf77 59) := by decide
theorem test_decode_symJjy : decoded 0b0110_10_0_0_00000000 0 0x7FFF = some (.symJjy 32767) := by decide
theorem test_decode_symMsf : decoded 0b0110_11_0_0_00000000 0 0xFFFF = some (.symMsf (-1)) := by decide
theorem test_decode_symSel : decoded 0b0110_00_1_0_00000000 0 0x003C = some (.symSel 60) := by decide
theorem test_decode_lvlWwvb : decoded 0b0111_00_0_0_00000000 0x31F 0x0002 = some (.lvlWwvb Sym.mark 799) := by decide
theorem test_decode_lvlDcf77 : decoded 0b0111_01_0_0_00000000 0x32 0xFFFB = some (.lvlDcf77 Sym.idle 50) := by decide
theorem test_decode_lvlJjy : decoded 0b0111_10_0_0_00000000 0x1FFFF 0xFFF9 = some (.lvlJjy Sym.one 65535) := by decide
theorem test_decode_lvlMsf : decoded 0b0111_11_0_0_00000000 0x96 0x0004 = some (.lvlMsf Sym.a0b1 150) := by decide
theorem test_decode_lvlSel : decoded 0b0111_00_1_0_00000000 0xFA 0x0005 = some (.lvlSel Sym.a1b1 250) := by decide
theorem test_decode_freqWwvb : decoded 0b1000_00_0_0_00000000 1 1 = some .freqWwvb := by decide
theorem test_decode_freqDcf77 : decoded 0b1000_01_0_0_00000000 1 1 = some .freqDcf77 := by decide
theorem test_decode_freqJjy : decoded 0b1000_10_0_0_00000000 1 1 = some .freqJjy := by decide
theorem test_decode_freqMsf : decoded 0b1000_11_0_0_00000000 1 1 = some .freqMsf := by decide
theorem test_decode_freqSel : decoded 0b1000_00_1_0_00000000 1 1 = some .freqSel := by decide
theorem test_decode_setSel : decoded 0b1001_00_0_0_00000000 0 0xFFFD = some (.setSel 1) := by decide
theorem test_decode_getSel : decoded 0b1010_00_0_0_00000000 1 1 = some .getSel := by decide
theorem test_decode_setJjyf : decoded 0b1011_00_0_0_00000000 0 0xFFFF = some (.setJjyf 1) := by decide
theorem test_decode_getJjyf : decoded 0b1100_00_0_0_00000000 1 1 = some .getJjyf := by decide

/-- Section 2.3: the ILLEGAL words, each with its condition of R73. -/
theorem test_decode_illegal :
    refusedFor 0x0001 = some .reservedBits ∧ refusedFor 0x1080 = some .reservedBits ∧
    refusedFor 0x1100 = some .modeOutsidePar ∧ refusedFor 0x5100 = some .modeOutsidePar ∧
    refusedFor 0x4200 = some .standardOutsideClass ∧ refusedFor 0x4500 = some .standardOutsideClass ∧
    refusedFor 0x9400 = some .standardOutsideClass ∧ refusedFor 0x5600 = some .dispatchNamesStandard ∧
    refusedFor 0x6E00 = some .dispatchNamesStandard ∧ refusedFor 0xD000 = some .reservedOp ∧
    refusedFor 0xE000 = some .reservedOp ∧ refusedFor 0xFFFF = some .reservedOp := by decide

/-- R73 said condition by condition refuses the same words of section 2.3. -/
theorem test_isIllegal :
    ([0x0001, 0x1080, 0x1100, 0x5100, 0x4200, 0x4500, 0x9400, 0x5600, 0x6E00, 0xD000, 0xE000, 0xFFFF] :
      List Nat).all (fun c => Cmd.isIllegal (BitVec.ofNat 16 c)) = true ∧
    ([0x0000, 0x1000, 0x4100, 0x5C00, 0x5200, 0x6200, 0x7C00, 0x8800, 0x9000, 0xA000, 0xB000, 0xC000] :
      List Nat).all (fun c => !Cmd.isIllegal (BitVec.ofNat 16 c)) = true := by decide

/-- Section 2.3: the civil-time words. -/
theorem test_encode_time :
    opaOfCivilTime golden = 0x000FB021104C01DE ∧ opaOfCivilTime newYear = 0x000FD21DDB3E05FB ∧
    opaOfCivilTime { year := 2024, month := 5, mday := 15, hour := 13, minute := 29, wday := 6, yday := 166,
                     isdst := true, todayDST := true, tomorrowDST := true } = 0x000FD1F2A99E035D := by decide

/-- Sections 2.1, 2.8 and 2.10: requests as the assembler writes them. -/
theorem test_encode_operands :
    encode (.parE 0x8000000000000000 63 63) = req 0x4000 0x8000000000000000 0x3F3F ∧
    encode (.parO 0xFF 5 3) = req 0x4100 0xFF 0x0305 ∧ encode (.symWwvb (-1)) = req 0x6000 0 0xFFFF ∧
    encode (.lvlMsf Sym.a0b1 150) = req 0x7C00 0x96 0x0004 ∧ encode (.setSel 2) = req 0x9000 0 0x0002 := by decide

/-- The opcode table's numbering: CMD lowest, then OPA, then OPB (log entry 8). -/
theorem test_table_word :
    decodeTableWord 16 0x4100 = some (.parO 0 0 0) ∧ decodeTableWord 16 0x5600 = none ∧
    decodeTableWord 96 0x0305_00000000000000FF_4100 = some (.parO 0xFF 5 3) ∧
    decodeTableWord 16 0x0305_00000000000000FF_4100 = some (.parO 0 0 0) := by decide

/-- The request of a table word is the one the next step runs. -/
theorem test_withFetchWord :
    said (step (State.reset.withFetchWord 16 0x8400)) = some (0, 77500) ∧
    said (step (busy.withFetchWord 96 0x003B_0000000000000000_1000)) = some (0, 0x59) := by decide

/-! ### The primitives (section 2.1) -/

theorem test_nop : said (send busy 0x0000 0xFFFFFFFFFFFFFFFF 0xFFFF) = some (0, 0) := by decide
theorem test_bcd : said (send busy 0x1000 0 0xFFFF) = some (0, 0x35) := by decide
theorem test_bcd_drops_hundreds : said (send busy 0x1000 0 0x016E) = some (0, 0x66) := by decide
theorem test_pbcd : said (send busy 0x2000 0 0xFFFF) = some (0, 0x1465) := by decide
theorem test_pbcd_largest_day : said (send busy 0x2000 0 0x016E) = some (0, 0xCC6) := by decide
theorem test_rev8 : said (send busy 0x3000 0 0x1234) = some (0, 0x2C) := by decide
theorem test_rev8_nibble : said (send busy 0x3000 0 0x00F0) = some (0, 0x0F) := by decide
theorem test_parE_bit63 : said (send busy 0x4000 0x8000000000000000 0x3F3F) = some (0, 1) := by decide
theorem test_parE_range : said (send busy 0x4000 0x2204C 0x240C) = some (0, 0) := by decide
theorem test_parO_empty : said (send busy 0x4100 0xFF 0x0305) = some (0, 1) := by decide
theorem test_parO_seven : said (send busy 0x4100 0xFF 0x0600) = some (0, 0) := by decide

/-! ### The calendar (section 2.2) -/

theorem test_leap_years : leapYear 2000 = true ∧ leapYear 2100 = false ∧ leapYear 2024 = true := by decide
theorem test_add_minute_year : addMinute newYear = { year := 2026, mday := 1, wday := 4 } := by decide
theorem test_add_minute_leap_day :
    addMinute { year := 2024, month := 1, mday := 28, hour := 23, minute := 59, wday := 3, yday := 58 } =
      { year := 2024, month := 1, mday := 29, wday := 4, yday := 59 } := by decide
theorem test_add_minute_century :
    addMinute { year := 2100, month := 1, mday := 28, hour := 23, minute := 59, wday := 0, yday := 58 } =
      { year := 2100, month := 2, mday := 1, wday := 1, yday := 59 } := by decide
theorem test_add_minute_saturday :
    addMinute { year := 65535, month := 11, mday := 31, hour := 23, minute := 59, wday := 5, yday := 364 } =
      { year := 0, mday := 1, wday := 6 } := by decide
theorem test_add_minute_plain :
    addMinute { year := 2025, month := 6, mday := 14, hour := 9, minute := 41, second := 60, wday := 1, yday := 194,
                isdst := true } =
      { year := 2025, month := 6, mday := 14, hour := 9, minute := 42, second := 60, wday := 1, yday := 194,
        isdst := true } := by decide

/-- Section 2.2: the invalid civil times, one for each bound of R103. -/
theorem test_invalid_times :
    ([0x000FD2180002003C, 0x000FD21800020600, 0x000FD2180003E800, 0x000FD21800000000, 0x000FD2308EFA0000,
      0x000FD2219E3E0000, 0x000FD21E00020000, 0x000FD23800020000, 0x000FD21DDB7E0000] : List Nat).all
      (fun a => !validTime (civilTimeOfOpa (BitVec.ofNat 64 a))) = true := by decide

/-- R225: an invalid civil time stops each `ENC`. -/
theorem test_enc_invalid :
    faulted (send State.reset 0x5000 0x000FD2180002003C 0) = true ∧
    faulted (send State.reset 0x5400 0x000FD21800020600 0) = true ∧
    faulted (send State.reset 0x5800 0x000FD21DDB7E0000 0) = true ∧
    faulted (send State.reset 0x5C00 0x000FD23800020000 0) = true ∧
    faulted (send State.reset 0x5200 0x000FD2308EFA0000 0) = true := by decide

/-! ### The frames (sections 2.4 to 2.7) -/

set_option maxRecDepth 20000 in
/-- WWVB-1. -/
theorem test_enc_wwvb : frameAfter .wwvb (send busy 0x5000 0x000FB021104C01DE 0) =
    some (codes "M01100000M 000000111M 000000110M 011000000M 000000000M 100001000M".toList) := by decide
set_option maxRecDepth 20000 in
/-- WWVB-7: the DST pair of a day on which DST begins. -/
theorem test_enc_wwvb_dst : frameAfter .wwvb (send busy 0x5000 0x000FD30110D2007B 0) =
    some (codes "M10101001M 000000001M 000000110M 100000000M 000000010M 010100010M".toList) := by decide
set_option maxRecDepth 20000 in
/-- DCF-5: the upcoming minute, with DST. -/
theorem test_enc_dcf77 : frameAfter .dcf77 (send busy 0x5400 0x000FD24B309C0269 0) =
    some (codes "0000000000 0000000100 1010000101 0010000010 1010011100 101001001I".toList) := by decide
set_option maxRecDepth 20000 in
/-- DCF-7: Sunday is sent as 7. -/
theorem test_enc_dcf77_sunday : frameAfter .dcf77 (send busy 0x5400 0x000FD232ACB805FB 0) =
    some (codes "0000000000 0000000010 1000000000 0000001001 0111101100 101001001I".toList) := by decide
set_option maxRecDepth 20000 in
/-- JJY-1. -/
theorem test_enc_jjy : frameAfter .jjy (send busy 0x5800 0x000FD0208EFA0322 0) =
    some (codes "M01100100M 000100010M 000000110M 000000010M 000100100M 100000000M".toList) := by decide
set_option maxRecDepth 20000 in
/-- B-fall (section 2.9). -/
theorem test_enc_jjy_fall : frameAfter .jjy (send busy 0x5800 0x000FD2C54C44007B 0) =
    some (codes "M10101001M 000000001M 001100000M 011000100M 000100101M 000000000M".toList) := by decide
set_option maxRecDepth 20000 in
/-- B-fall (section 2.9): the upcoming minute, with DST. -/
theorem test_enc_msf : frameAfter .msf (send busy 0x5C00 0x000FD2C54C44007B 0) =
    some (codes "M000000000 0000000001 0010110001 0000100000 0001000000 0001113130".toList) := by decide
set_option maxRecDepth 20000 in
/-- B-leapday (section 2.9). -/
theorem test_enc_msf_leap_day : frameAfter .msf (send busy 0x5C00 0x000FD0208EFA0300 0) =
    some (codes "M000000000 0000000001 0010000010 1010011000 1001000000 0101331110".toList) := by decide
set_option maxRecDepth 20000 in
/-- P1, step 3: after reset the dispatch form is WWVB's. -/
theorem test_enc_sel : frameAfter .wwvb (send State.reset 0x5200 0x000FB021104C01DE 0) =
    some (codes "M01100000M 000000111M 000000110M 011000000M 000000000M 100001000M".toList) := by decide
set_option maxRecDepth 20000 in
/-- R23, R212: with `SEL` = JJY the dispatch form leaves the WWVB frame alone and is answered (0, 0). -/
theorem test_enc_sel_jjy :
    frameAfter .wwvb (send busy 0x5200 0x000FB021104C01DE 0) = some (List.replicate 60 Sym.one) ∧
    said (send busy 0x5200 0x000FB021104C01DE 0) = some (0, 0) := by decide

/-! ### Reading a symbol (R42, sections 1.2 and 2.10) -/

theorem test_sym_wwvb : said (send busy 0x6000 0 0x003B) = some (0, 1) ∧
    said (send busy 0x6000 0 0x003C) = some (0, 0) := by decide
theorem test_sym_wwvb_negative : said (send busy 0x6000 0 0xFFFF) = some (0, 0) ∧
    said (send busy 0x6000 0 0x8000) = some (0, 0) ∧ said (send busy 0x6000 0 0x7FFF) = some (0, 0) := by decide
theorem test_sym_dcf77 : said (send busy 0x6400 0 0x0000) = some (0, 3) := by decide
theorem test_sym_jjy : said (send busy 0x6800 0 0x001D) = some (0, 2) := by decide
theorem test_sym_msf : said (send busy 0x6C00 0 0x0039) = some (0, 5) := by decide
theorem test_sym_sel : said (send busy 0x6200 0 0x0000) = some (0, 2) := by decide

/-! ### Levels (section 2.8): the offsets on either side of each step -/

theorem test_lvl_wwvb : ([(0, 199), (0, 200), (1, 499), (1, 500), (2, 799), (2, 800), (2, 999)] : List (Nat × Nat)).map
    (fun x => said (send busy 0x7000 x.2 x.1)) =
    [some (0, 0), some (0, 1), some (0, 0), some (0, 1), some (0, 0), some (0, 1), some (0, 1)] := by decide
theorem test_lvl_dcf77 : ([(0, 99), (0, 100), (1, 199), (1, 200), (3, 0), (3, 999)] : List (Nat × Nat)).map
    (fun x => said (send busy 0x7400 x.2 x.1)) =
    [some (0, 0), some (0, 1), some (0, 0), some (0, 1), some (0, 1), some (0, 1)] := by decide
theorem test_lvl_jjy : ([(0, 799), (0, 800), (1, 499), (1, 500), (2, 199), (2, 200), (0, 0)] : List (Nat × Nat)).map
    (fun x => said (send busy 0x7800 x.2 x.1)) =
    [some (0, 1), some (0, 0), some (0, 1), some (0, 0), some (0, 1), some (0, 0), some (0, 1)] := by decide
theorem test_lvl_msf : ([(4, 99), (4, 100), (4, 199), (4, 200), (4, 299), (4, 300), (5, 299), (5, 300)] :
    List (Nat × Nat)).map (fun x => said (send busy 0x7C00 x.2 x.1)) =
    [some (0, 0), some (0, 1), some (0, 1), some (0, 0), some (0, 0), some (0, 1), some (0, 0), some (0, 1)] := by
  decide
theorem test_lvl_msf_others : ([(0, 99), (0, 100), (1, 199), (1, 200), (2, 499), (2, 500)] : List (Nat × Nat)).map
    (fun x => said (send busy 0x7C00 x.2 x.1)) =
    [some (0, 0), some (0, 1), some (0, 0), some (0, 1), some (0, 0), some (0, 1)] := by decide
/-- With `SEL` = JJY the dispatch form answers JJY's level. -/
theorem test_lvl_sel : said (send busy 0x7200 150 2) = some (0, 1) ∧ said (send busy 0x7200 250 2) = some (0, 0) := by
  decide
/-- R72: beyond 999 ms the level is the free value, whatever it is. -/
theorem test_lvl_unlisted :
    exec (.lvlWwvb Sym.zero 1000) busy = .next (answered busy (resOfBool (Config.unlistedLevel .wwvb Sym.zero 1000))) :=
  rfl

/-! ### Frequencies and registers (section 2.10) -/

theorem test_freq : said (send State.reset 0x8000 0 0) = some (0, 0xEA60) ∧
    said (send State.reset 0x8400 0 0) = some (0, 0x12EBC) ∧ said (send State.reset 0x8800 0 0) = some (0, 0x9C40) ∧
    said (send State.reset 0x8C00 0 0) = some (0, 0xEA60) := by decide
theorem test_freq_jjy_60k : said (send busy 0x8800 0 0) = some (0, 0xEA60) := by decide
theorem test_freq_sel : said (send State.reset 0x8200 0 0) = some (0, 0xEA60) ∧
    said (send { State.reset with sel := 2 } 0x8200 0 0) = some (0, 0x9C40) ∧
    said (send { State.reset with sel := 1 } 0x8200 0 0) = some (0, 0x12EBC) := by decide
theorem test_setSel : (after (send State.reset 0x9000 0 0xFFFD)).map State.sel = some 1 ∧
    said (send State.reset 0x9000 0 0xFFFD) = some (0, 0) := by decide
theorem test_getSel : said (send busy 0xA000 0 0) = some (0, 2) := by decide
theorem test_setJjyf : (after (send busy 0xB000 0 0xFFFE)).map State.jjyf = some 0 ∧
    said (send busy 0xB000 0 0xFFFE) = some (0, 0) := by decide
theorem test_getJjyf : said (send busy 0xC000 0 0) = some (0, 1) := by decide

/-! ### Steps -/

/-- R222: an ILLEGAL word is answered (1, 0) and nothing else changes. -/
theorem test_illegal_word : said (send busy 0x5600 0x000FD21DDB3E05FB 0) = some (1, 0) ∧
    (after (send busy 0x5600 0x000FD21DDB3E05FB 0)).map (fun t => (t.sel, t.jjyf)) = some (2, 1) := by decide
set_option maxRecDepth 20000 in
/-- R238: the reset event. -/
theorem test_reset_event : (after (step { busy with events := [.reset] })).map
    (fun t => (t.frameMsf.toList, t.sel, t.jjyf, t.responses.length)) =
    some (List.replicate 60 Sym.zero, 0, 0, 1) := by decide
/-- With nothing issued the core holds its state. -/
theorem test_idle : step busy = .next busy := rfl

/-! ### The assembler (R77 to R80; P1 to P4) -/

set_option maxRecDepth 20000 in
theorem test_asm_time : assembleLine
    ['E', 'N', 'C', '.', 'S', 'E', 'L', ' ', Char.ofNat 123, 'y', 'e', 'a', 'r', '=', '2', '0', '0', '8', ',', ' ', 'm', 'o',
     'n', 't', 'h', '=', '2', ',', ' ', 'm', 'd', 'a', 'y', '=', '6', ',', ' ', 'h', 'o', 'u', 'r', '=', '7', ',', ' ',
     'm', 'i', 'n', 'u', 't', 'e', '=', '3', '0', ',', ' ', 'w', 'd', 'a', 'y', '=', '4', ',', ' ', 'y', 'd', 'a', 'y',
     '=', '6', '5', Char.ofNat 125] = some (req 0x5200 0x000FB021104C01DE 0) := by decide
set_option maxRecDepth 20000 in
theorem test_asm_lines :
    assembleLine "SETSEL WWVB".toList = some (req 0x9000 0 0) ∧
    assembleLine "SETJJYF 60k".toList = some (req 0xB000 0 1) ∧
    assembleLine "LVL.SEL MARK, 850".toList = some (req 0x7200 0x352 2) ∧
    assembleLine "SYM.WWVB -1".toList = some (req 0x6000 0 0xFFFF) ∧
    assembleLine "PAR.E 0x2204C, 12, 36".toList = some (req 0x4000 0x2204C 0x240C) ∧
    assembleLine "ENC.JJY 0x000FD0208EFA0322".toList = some (req 0x5800 0x000FD0208EFA0322 0) ∧
    assembleLine "NOP 1".toList = none ∧ assembleLine "BCD 65536".toList = none := by decide
set_option maxRecDepth 20000 in
/-- R79: a field left out encodes 0. That all may be left out, and that an empty piece is refused, is log entry 10. -/
theorem test_asm_time_left_out :
    assembleLine ("ENC.MSF ".toList ++ [Char.ofNat 123] ++ "mday=1".toList ++ [Char.ofNat 125]) =
      some (req 0x5C00 0x20000 0) ∧
    assembleLine ("ENC.MSF ".toList ++ [Char.ofNat 123, ' ', Char.ofNat 125]) = some (req 0x5C00 0 0) ∧
    assembleLine ("ENC.MSF ".toList ++ [Char.ofNat 123] ++ "mday=1,".toList ++ [Char.ofNat 125]) = none := by decide
set_option maxRecDepth 20000 in
/-- R79: the number gives `OPA` directly, its bits 63 to 57 as written (log entry 10). -/
theorem test_asm_time_number :
    assembleLine "ENC.JJY 0xFE0FD0208EFA0322".toList = some (req 0x5800 0xFE0FD0208EFA0322 0) := by decide
set_option maxRecDepth 20000 in
theorem test_asm_program :
    assemble ["; boot".toList, "".toList, "  FREQ.SEL".toList, "GETJJYF".toList] =
      some [req 0x8200 0 0, req 0xC000 0 0] := by decide

/-! ### Witnesses: for each statement with hypotheses, states and operands that meet all of them, at the boundary of
each clause -/

/-- IllegalWordIsAnswered, DecodeRefusesExactlyIllegalWords: a word for each of the five conditions of R73, and legal
words next to them. -/
theorem witness_illegalWord :
    illegalWord 0xD000 ∧ illegalWord 0x0001 ∧ illegalWord 0x9400 ∧ illegalWord 0x1100 ∧ illegalWord 0x5600 ∧
    ¬illegalWord 0xC000 ∧ ¬illegalWord 0x4100 ∧ ¬illegalWord 0x5200 ∧ ¬illegalWord 0x8C00 := by
  simp [illegalWord]

/-- IllegalWordIsAnswered. -/
theorem witness_IllegalWordIsAnswered :
    ({ busy with events := [.request ⟨0xFFFF, 1, 2⟩, .reset] } : State).events = .request ⟨0xFFFF, 1, 2⟩ :: [.reset] ∧
      illegalWord 0xFFFF := by
  simp [illegalWord]

/-- LegalWordIsTableRow. -/
theorem witness_LegalWordIsTableRow : decode ⟨0x4100, 0xFF, 0x3F3F⟩ = .ok (.parO 0xFF 63 63) := by
  decide

/-- UnreadOperandBitsIgnored: operands that differ only in bits the format does not read, one for each format. -/
theorem witness_UnreadOperandBitsIgnored :
    (∀ c ∈ ([0x0000, 0x8000, 0xA000, 0xC000, 0xD000] : List Cmd), readMask c = (0, 0)) ∧
    (0x12 : Opb) &&& (readMask 0x3000).2 = 0xFF12 &&& (readMask 0x3000).2 ∧
    (0x0700 : Opb) &&& (readMask 0x4100).2 = 0xC7C0 &&& (readMask 0x4100).2 ∧
    (0x000FD1F2A99E035D : Opa) &&& (readMask 0x5200).1 = 0xFE0FD1F2A99E035D &&& (readMask 0x5200).1 ∧
    (0x1FFFF : Opa) &&& (readMask 0x7C00).1 = 0xFFFF &&& (readMask 0x7C00).1 ∧
    (0xFFF9 : Opb) &&& (readMask 0x7C00).2 = 1 &&& (readMask 0x7C00).2 ∧
    (0xFFFD : Opb) &&& (readMask 0x9000).2 = 1 &&& (readMask 0x9000).2 ∧
    (0xFFFE : Opb) &&& (readMask 0xB000).2 = 0 &&& (readMask 0xB000).2 := by
  simp [readMask]

/-- DecodeEncodeAgree: well-formed instructions at the ends of their operands. -/
theorem witness_DecodeEncodeAgree :
    ([.bcd 65535, .parE 0xFFFFFFFFFFFFFFFF 63 0, .symSel (-32768), .symMsf 32767, .lvlJjy 7 65535, .encMsf newYear,
      .setSel 3, .setJjyf 1] : List Instr).all Instr.wellFormed = true := by decide

set_option maxRecDepth 20000 in
/-- AssembledLinesAreLegal. -/
theorem witness_AssembledLinesAreLegal : assembleLine "PAR.O 0xFF, 5, 3".toList = some (req 0x4100 0xFF 0x0305) := by
  decide

/-- StepRunsDecodedInstruction. -/
theorem witness_StepRunsDecodedInstruction :
    ({ busy with events := [.request ⟨0x1000, 0, 59⟩, .reset] } : State).events =
      .request ⟨0x1000, 0, 59⟩ :: [.reset] ∧ decode ⟨0x1000, 0, 59⟩ = .ok (.bcd 59) := ⟨rfl, rfl⟩

/-- IdleCoreHoldsState and ResetEventSetsState. -/
theorem witness_idle_and_reset :
    busy.events = [] ∧ ({ busy with events := [.reset, .reset] } : State).events = .reset :: [.reset] := ⟨rfl, rfl⟩

/-- EveryRequestGetsOneResponse, StepKeepsFramesLegal, StepKeepsFramesEncoded: steps that have a next state, legal and
ILLEGAL. -/
theorem witness_steps :
    (after (send busy 0x1000 0 59)).isSome = true ∧ (after (send busy 0xFFFF 0 0)).isSome = true ∧
    (after (send State.reset 0x5200 0x000FB021104C01DE 0)).isSome = true := by decide

/-- OnlyInvalidEncFaults: both clauses. -/
theorem witness_OnlyInvalidEncFaults :
    (civilTimeOf (.encSel { minute := 60, mday := 1 }) = some { minute := 60, mday := 1 } ∧
      validTime { minute := 60, mday := 1 } = false) ∧
    (civilTimeOf (.encJjy { minute := 59, mday := 1 }) = some { minute := 59, mday := 1 } ∧
      validTime { minute := 59, mday := 1 } = true) ∧ civilTimeOf .getSel = none := by decide

/-- SafeRunsComplete: a stream with a valid `ENC`, an ILLEGAL word, a `SYM` and a reset. -/
theorem witness_SafeRunsComplete :
    State.safe { busy with events := [.request (req 0x5200 0x000FB021104C01DE 0), .request (req 0xFFFF 0 0),
      .request (req 0x6200 0 60), .reset] } = true := by decide

/-- SymReadsEntry and SymOutOfRangeIsZero: the ends of both ranges. -/
theorem witness_sym :
    ((0 : Nat) < 60 ∧ (59 : Nat) < 60) ∧ ((-1 : Int) < 0 ∨ (59 : Int) < -1) ∧ ((60 : Int) < 0 ∨ (59 : Int) < 60) ∧
    ¬((0 : Int) < 0 ∨ (59 : Int) < 0) ∧ ¬((59 : Int) < 0 ∨ (59 : Int) < 59) := by decide

/-- SymNeverAnswersReserved, StepKeepsFramesLegal: a state that is not reset and whose frames are legal. -/
theorem witness_FramesLegal : busy.FramesLegal := by
  intro std k h
  cases std <;> simp [busy, State.frame] <;> rfl

/-- SymNeverAnswersReserved: each of the five forms. -/
theorem witness_SymNeverAnswersReserved :
    let forms := [Instr.symWwvb 59, .symDcf77 59, .symJjy 59, .symMsf 59, .symSel 59]
    Instr.symWwvb 59 ∈ forms ∧ Instr.symDcf77 59 ∈ forms ∧ Instr.symJjy 59 ∈ forms ∧ Instr.symMsf 59 ∈ forms ∧
      Instr.symSel 59 ∈ forms := by decide

/-- StepKeepsFramesEncoded: a state that is not reset and whose frames are encoded. -/
theorem witness_FramesEncoded : State.FramesEncoded
    { State.reset with frameWwvb := wwvbFrame golden, frameDcf77 := dcf77Frame newYear, sel := 3 } := by
  intro std
  cases std
  · exact .inr ⟨golden, by decide, rfl⟩
  · exact .inr ⟨newYear, by decide, rfl⟩
  · exact .inl rfl
  · exact .inl rfl

/-- The `LVL` results: the last offset of the second, the first beyond it, and an unlisted symbol of each standard. -/
theorem witness_lvl :
    ((999 : Nat) ≤ 999 ∧ ¬(1000 : Nat) ≤ 999) ∧ (999 < (1000 : Nat) ∨ 3 ≤ Sym.zero.toNat) ∧
    (999 < (0 : Nat) ∨ 3 ≤ Sym.idle.toNat) ∧ (999 < (0 : Nat) ∨ Sym.mark = Sym.mark ∨ 4 ≤ Sym.mark.toNat) ∧
    (999 < (0 : Nat) ∨ (7#3) = Sym.mark ∨ 4 ≤ (7#3).toNat) ∧
    (999 < (0 : Nat) ∨ Sym.idle = Sym.idle ∨ 6 ≤ Sym.idle.toNat) ∧
    (999 < (0 : Nat) ∨ (6#3) = Sym.idle ∨ 6 ≤ (6#3).toNat) := by decide

/-- LvlSelResult: a state with `SEL` = 1 and one with another value. -/
theorem witness_LvlSelResult : busy.sel ≠ 1 ∧ ({ busy with sel := 1 } : State).sel = 1 := by decide

/-- LevelTransitions: a waveform of the list. -/
theorem witness_LevelTransitions : (Instr.lvlMsf Sym.a0b1, 3) ∈
    [(Instr.lvlMsf Sym.mark, 1), (Instr.lvlMsf Sym.a1b1, 1), (Instr.lvlMsf Sym.a0b1, 3)] := by
  simp

/-- Every statement on a valid civil time (the `ENC` maps, what is read back, parity, the fixed seconds, the
calendar): valid civil times at the ends of their fields, a leap day, a leap second and the last minute of the last
year among them. -/
theorem witness_validTime :
    validTime golden = true ∧ validTime newYear = true ∧ validTime { mday := 1 } = true ∧
    validTime { year := 2024, month := 1, mday := 29, hour := 23, minute := 59, second := 60, wday := 6, yday := 365,
                isdst := true, todayDST := true, tomorrowDST := true } = true ∧
    validTime { year := 65535, month := 11, mday := 31, hour := 23, minute := 59, wday := 5, yday := 364 } = true := by
  decide

/-- AddMinuteRollsOver: a civil time for each of the five cases, and two beyond the bounds of R103. -/
theorem witness_AddMinuteRollsOver :
    (golden.minute ≠ 59 ∧ ({ minute := 60 } : CivilTime).minute ≠ 59) ∧
    (({ golden with minute := 59 } : CivilTime).minute = 59 ∧ golden.hour ≠ 23) ∧
    (newYear.minute = 59 ∧ newYear.hour = 23 ∧ golden.mday < daysInMonth golden.month golden.year) ∧
    (daysInMonth golden.month golden.year ≤ 31 ∧ golden.month ≠ 11 ∧ daysInMonth 12 2025 ≤ 1) ∧
    (daysInMonth newYear.month newYear.year ≤ newYear.mday ∧ newYear.month = 11) := by decide

/-- AddMinuteKeepsValid: the day of year agrees with the date, and a valid civil time in which it does not. -/
theorem witness_AddMinuteKeepsValid :
    golden.yday + 1 = ((monthLengths golden.year).take golden.month).sum + golden.mday ∧
    newYear.yday + 1 = ((monthLengths newYear.year).take newYear.month).sum + newYear.mday ∧
    validTime { golden with yday := 365 } = true := by decide

/-- AddMinuteIsOneMinuteLater. -/
theorem witness_AddMinuteIsOneMinuteLater : validTime newYear = true ∧
    ¬(newYear.year = 65535 ∧ newYear.month = 11 ∧ newYear.mday = 31 ∧ newYear.hour = 23 ∧ newYear.minute = 59) := by
  decide

/-- NonWritersLeaveState: an instruction of each family that writes nothing. -/
theorem witness_NonWritersLeaveState :
    ([.nop, .bcd 1, .pbcd 1, .rev8 1, .parE 1 0 0, .parO 1 0 0, .symWwvb 0, .lvlDcf77 0 0, .freqJjy, .symMsf 0, .lvlSel 0 0,
      .freqSel, .getSel, .getJjyf] : List Instr).all (fun i => !writesState i) = true ∧
    ([.encWwvb golden, .encDcf77 golden, .encJjy golden, .encMsf golden, .encSel golden, .setSel 1, .setJjyf 1] :
      List Instr).all writesState = true := by decide

/-- EncChangesOnlyItsFrame: every `ENC` form, the dispatch form with `SEL` = 2, and a frame that is another one. -/
theorem witness_EncChangesOnlyItsFrame :
    encTarget busy (.encWwvb golden) = some .wwvb ∧ encTarget busy (.encDcf77 golden) = some .dcf77 ∧
    encTarget busy (.encJjy golden) = some .jjy ∧ encTarget busy (.encMsf golden) = some .msf ∧
    encTarget busy (.encSel golden) = some .jjy ∧ (after (exec (.encSel golden) busy)).isSome = true ∧
    Std.msf ≠ Std.jjy := by decide

/-- FrameDependsOnReadFields: two different civil times that agree on the fields read, for each standard. -/
theorem witness_FrameDependsOnReadFields :
    (∀ std, std ≠ Std.wwvb → std ≠ Std.jjy → sameRead std golden { golden with yday := 3, second := 9, todayDST := true }) ∧
    sameRead .wwvb golden { golden with second := 9, wday := 0, isdst := true } ∧
    sameRead .jjy golden { golden with second := 9, todayDST := true, month := 0 } ∧
    (after (exec (encOf .msf golden) busy)).isSome = true ∧
    (after (exec (encOf .msf { golden with yday := 3, second := 9, todayDST := true }) State.reset)).isSome = true := by
  refine ⟨?_, ?_, ?_, by decide, by decide⟩
  · intro std h1 h2
    cases std <;> simp_all [sameRead]
  · simp [sameRead]
  · simp [sameRead]

/-- ResponsesNeverRead, JjyfReadByThreeForms, SelReadBySelForms: instructions that meet the hypotheses, a register
write among them. -/
theorem witness_readers :
    readsJjyf (.setJjyf 1) = false ∧ (after (exec (.setJjyf 1) busy)).isSome = true ∧
    readsJjyf (.encSel golden) = false ∧ (after (exec (.encSel golden) busy)).isSome = true ∧
    readsSel (.setSel 1) = false ∧ (after (exec (.setSel 1) busy)).isSome = true ∧
    readsSel (.encMsf golden) = false ∧ (after (exec (.encMsf golden) busy)).isSome = true ∧
    readsJjyf .freqSel = true ∧ readsSel .getSel = true := by decide

end Sys2Proof.Tests
end

section
/-! PROOFS. The family of the state: what an instruction reads, what it leaves unchanged, and the two invariants of
the frames. -/

namespace Sys2Proof.Machine

open Sys2Proof.Claims

variable {s t : State}

/-! ### The forms that share one meaning -/

/-- The waveform of a standard (R131, R155, R175, R204). -/
def levelOf : Std → SymCode → Nat → Bool
  | .wwvb => wwvbLevel
  | .dcf77 => dcf77Level
  | .jjy => jjyLevel
  | .msf => msfLevel

/-- The carrier frequency of a standard; only JJY's depends on the state, by `JJYF` (R132, R156, R176, R205). -/
def frequencyOf (s : State) : Std → Res
  | .wwvb => 60000
  | .dcf77 => 77500
  | .jjy => jjyFrequency s
  | .msf => 60000

/-- The dispatch form of `LVL` is the `LVL` of the live standard (R214). -/
theorem execLvlSel_eq (sym : SymCode) (ms : Nat) (s : State) :
    execLvlSel sym ms s = answerLevel (levelOf s.live sym ms) s := by
  unfold execLvlSel
  cases s.live <;> rfl

/-- The dispatch form of `FREQ` answers the live standard's frequency (R215). -/
theorem execFreqSel_eq (s : State) : execFreqSel s = answer s (frequencyOf s s.live) := by
  unfold execFreqSel
  cases s.live <;> rfl

/-- Every `SYM` form reads the frame of one standard (R130, R154, R174, R203, R213). -/
theorem exec_sym_eq {i : Instr} {index : Int} (s : State)
    (hi : i ∈ [Instr.symWwvb index, .symDcf77 index, .symJjy index, .symMsf index, .symSel index]) :
    ∃ std, exec i s = symbolForSecond std index s := by
  simp only [List.mem_cons, List.not_mem_nil, or_false] at hi
  rcases hi with rfl | rfl | rfl | rfl | rfl
  · exact ⟨.wwvb, rfl⟩
  · exact ⟨.dcf77, rfl⟩
  · exact ⟨.jjy, rfl⟩
  · exact ⟨.msf, rfl⟩
  · exact ⟨s.live, rfl⟩

/-- The standard that the code in `SEL` chooses is the live one (R60, R209). -/
theorem byCode_sel_eq_live (s : State) : byCode s.sel Std.wwvb .dcf77 .jjy .msf = s.live := by
  rcases live_cases s with ⟨hsel, hlive⟩ | ⟨hsel, hlive⟩ | ⟨hsel, hlive⟩ | ⟨hsel, hlive⟩ <;>
    rw [hsel, hlive] <;> rfl

/-- An `ENC` form encodes a minute for its target (R129, R153, R173, R202, R212). -/
theorem exec_eq_encodeMinute {i : Instr} {std : Std} (h : encTarget s i = some std) :
    ∃ c, exec i s = encodeMinute std (frameOf std) c s := by
  cases i <;> simp only [encTarget, Option.some.injEq, reduceCtorEq] at h
  case encSel c => exact ⟨c, by rw [← h, byCode_sel_eq_live]; exact execEncSel_eq c s⟩
  all_goals
    subst h
    exact ⟨_, rfl⟩

/-! ### Operations that write no state -/

/-- An operation that is no `ENC`, `SETSEL` or `SETJJYF` only answers (R39). -/
theorem exec_eq_answer {i : Instr} (h : writesState i = false) (s : State) : ∃ res, exec i s = answer s res := by
  cases i
  case encWwvb | encDcf77 | encJjy | encMsf | encSel | setSel | setJjyf => cases h
  case lvlSel sym ms => exact ⟨_, execLvlSel_eq sym ms s⟩
  case freqSel => exact ⟨_, execFreqSel_eq s⟩
  all_goals exact ⟨_, rfl⟩

/-! ### What an instruction does not read -/

/-- An outcome with its next state changed by `f`. -/
def mapNext (f : State → State) : Result → Result
  | .next u => .next (f u)
  | .fault r => .fault r
  | .refused r => .refused r

@[simp] theorem mapNext_next (f : State → State) (u : State) : mapNext f (.next u) = .next (f u) := rfl

/-- Only a next state is mapped to a next state. -/
theorem mapNext_eq_next {f : State → State} {o : Result} (h : mapNext f o = .next t) :
    ∃ u, o = .next u ∧ f u = t := by
  cases o with
  | next u => exact ⟨u, rfl, by simpa using h⟩
  | fault r => cases h
  | refused r => cases h

/-- `f` changes only what the instruction `i` neither reads nor writes: it keeps the frames, and `SEL` and `JJYF` where
`i` reads them, and it commutes with what `i` does to the state. -/
structure Unseen (i : Instr) (f : State → State) : Prop where
  frame : ∀ s std, (f s).frame std = s.frame std
  respond : ∀ s status res, f (s.respond status res) = (f s).respond status res
  frameWrite : ∀ s std F, f (s.frameWrite std F) = (f s).frameWrite std F
  sel : readsSel i = true → ∀ s, (f s).sel = s.sel
  jjyf : readsJjyf i = true → ∀ s, (f s).jjyf = s.jjyf
  setSel : ∀ s v, i = .setSel v → f (s.setSel v) = (f s).setSel v
  setJjyf : ∀ s v, i = .setJjyf v → f (s.setJjyf v) = (f s).setJjyf v

namespace Unseen

variable {i : Instr} {f : State → State}

/-- An answer appends its response to whatever the change left (R56). -/
theorem answer_comm (hf : Unseen i f) (s : State) (res : Res) :
    answer (f s) res = mapNext f (answer s res) := by
  simp [answer_eq, hf.respond]

/-- A `SYM` reads one frame, which the change keeps (R130). -/
theorem symbolForSecond_comm (hf : Unseen i f) (std : Std) (index : Int) (s : State) :
    symbolForSecond std index (f s) = mapNext f (symbolForSecond std index s) := by
  unfold symbolForSecond
  rw [frameRead_congr (hf.frame s std), hf.answer_comm]

/-- Whether an `ENC` faults, and the frame it writes, depend on the civil time alone (R25, R225). -/
theorem encodeMinute_comm (hf : Unseen i f) (std : Std) (F : CivilTime → Frame) (c : CivilTime) (s : State) :
    encodeMinute std F c (f s) = mapNext f (encodeMinute std F c s) := by
  unfold encodeMinute
  split
  · rw [← hf.frameWrite, hf.answer_comm]
  · rfl

theorem live_eq (hf : Unseen i f) (h : readsSel i = true) (s : State) : (f s).live = s.live := by
  simp [State.live, hf.sel h]

theorem jjyFrequency_eq (hf : Unseen i f) (h : readsJjyf i = true) (s : State) :
    jjyFrequency (f s) = jjyFrequency s := by
  simp [jjyFrequency, hf.jjyf h]

theorem frequencyOf_eq (hf : Unseen i f) (h : readsJjyf i = true) (s : State) (std : Std) :
    frequencyOf (f s) std = frequencyOf s std := by
  cases std
  case jjy => exact hf.jjyFrequency_eq h s
  all_goals rfl

/-- A change that an instruction does not see passes through it. -/
theorem exec_comm (hf : Unseen i f) (s : State) : exec i (f s) = mapNext f (exec i s) := by
  cases i <;> simp only [exec]
  case encWwvb c => exact hf.encodeMinute_comm .wwvb _ c s
  case encDcf77 c => exact hf.encodeMinute_comm .dcf77 _ c s
  case encJjy c => exact hf.encodeMinute_comm .jjy _ c s
  case encMsf c => exact hf.encodeMinute_comm .msf _ c s
  case encSel c => rw [execEncSel_eq, execEncSel_eq, hf.live_eq rfl, hf.encodeMinute_comm]
  case symWwvb index => exact hf.symbolForSecond_comm .wwvb index s
  case symDcf77 index => exact hf.symbolForSecond_comm .dcf77 index s
  case symJjy index => exact hf.symbolForSecond_comm .jjy index s
  case symMsf index => exact hf.symbolForSecond_comm .msf index s
  case symSel index => rw [execSymSel, execSymSel, hf.live_eq rfl, hf.symbolForSecond_comm]
  case lvlSel sym ms => rw [execLvlSel_eq, execLvlSel_eq, hf.live_eq rfl]; exact hf.answer_comm s _
  case freqJjy => rw [execFreqJjy, execFreqJjy, hf.jjyFrequency_eq rfl, hf.answer_comm]
  case freqSel => rw [execFreqSel_eq, execFreqSel_eq, hf.live_eq rfl, hf.frequencyOf_eq rfl, hf.answer_comm]
  case getSel => rw [execGetSel, execGetSel, hf.sel rfl, hf.answer_comm]
  case getJjyf => rw [execGetJjyf, execGetJjyf, hf.jjyf rfl, hf.answer_comm]
  case setSel v => rw [execSetSel, execSetSel, ← hf.setSel s v rfl, hf.answer_comm]
  case setJjyf v => rw [execSetJjyf, execSetJjyf, ← hf.setJjyf s v rfl, hf.answer_comm]
  all_goals exact hf.answer_comm s _

end Unseen

/-- `s` with earlier responses put before those it holds. -/
def State.recordBefore (l : List Response) (s : State) : State := { s with responses := l ++ s.responses }

/-- No instruction sees earlier responses (R31). -/
theorem unseen_recordBefore (i : Instr) (l : List Response) : Unseen i (State.recordBefore l) where
  frame _ std := by cases std <;> rfl
  respond _ _ _ := by simp [State.recordBefore, State.respond]
  frameWrite _ std _ := by cases std <;> rfl
  sel _ _ := rfl
  jjyf _ _ := rfl
  setSel _ _ _ := rfl
  setJjyf _ _ _ := rfl

/-- Only the dispatch forms, `GETSEL` and `SETSEL` see `SEL` (R27). -/
theorem unseen_setSel {i : Instr} (hr : readsSel i = false) (hw : ∀ w, i ≠ .setSel w) (v : BitVec 2) :
    Unseen i (State.setSel · v) where
  frame u std := u.setSel_frame v std
  respond _ _ _ := rfl
  frameWrite _ std _ := by cases std <;> rfl
  sel h := by simp [hr] at h
  jjyf _ _ := rfl
  setSel _ w h := absurd h (hw w)
  setJjyf _ _ _ := rfl

/-- A next state holds one response more than before (R56). -/
theorem exec_adds_one_response {i : Instr} (h : exec i s = .next t) :
    ∃ r : Response, t.responses = s.responses ++ [r] := by
  obtain ⟨u, res, hu, rfl⟩ := exec_cases h
  exact ⟨_, by rw [State.respond_responses, hu.ports.2]⟩

/-! ### What a step can do to a frame -/

@[simp] theorem State.withEvents_frame (s : State) (l : List HostEvent) (std : Std) :
    State.frame { s with events := l } std = s.frame std := by
  cases std <;> rfl

theorem State.reset_frame (std : Std) : State.reset.frame std = Frame.zeros := by
  cases std <;> rfl

/-- A reset event leaves every frame all `ZERO` (R238). -/
theorem resetCore_frame (h : resetCore s = .next t) (std : Std) : t.frame std = Frame.zeros := by
  cases h
  cases std <;> rfl

/-- A change keeps a frame, or makes it the frame of a valid civil time (R23, R24). -/
theorem Change.frame_cases {u : State} (h : Change s u) (std : Std) :
    u.frame std = s.frame std ∨ ∃ c, validTime c = true ∧ u.frame std = frameOf std c := by
  cases h with
  | none => exact .inl rfl
  | sel v => exact .inl (s.setSel_frame v std)
  | jjyf f => exact .inl (s.setJjyf_frame f std)
  | frame target c hc =>
    by_cases hstd : std = target
    · subst hstd
      exact .inr ⟨c, hc, s.frameWrite_frame_same std _⟩
    · exact .inl (s.frameWrite_frame_other hstd _)

/-- A step keeps a frame, resets it, or makes it the frame of a valid civil time (R24, R26, R36). -/
theorem step_frame_cases (h : step s = .next t) (std : Std) :
    t.frame std = s.frame std ∨ t.frame std = Frame.zeros ∨
      ∃ c, validTime c = true ∧ t.frame std = frameOf std c := by
  rcases step_cases h with ⟨_, rfl⟩ | ⟨_, _, hreset⟩ | ⟨_, _, _, _, _, rfl⟩ | ⟨_, _, _, _, _, hexec⟩
  · exact .inl rfl
  · exact .inr (.inl (resetCore_frame hreset std))
  · exact .inl (by simp)
  · obtain ⟨u, res, hu, rfl⟩ := exec_cases hexec
    rcases hu.frame_cases std with hkept | ⟨c, hc, hwritten⟩
    · exact .inl (by simpa using hkept)
    · exact .inr (.inr ⟨c, hc, by simpa using hwritten⟩)

/-! ### The codes a frame can hold -/

/-- No standard can hold a reserved code (R22, R70). -/
theorem toNat_lt_six_of_legalSym {std : Std} {c : SymCode} (h : legalSym std c = true) : c.toNat < 6 := by
  cases std <;> revert h c <;> decide

theorem legalSym_zero (std : Std) : legalSym std Sym.zero = true := by
  cases std <;> rfl

theorem legalSym_dataSym (std : Std) (b : Bool) : legalSym std (dataSym b) = true := by
  cases std <;> cases b <;> rfl

/-- Where channel B implies channel A, the pair is one of MSF's own symbols (R200). -/
theorem legalSym_msfSym {a b : Bool} (h : b = true → a = true) : legalSym .msf (msfSym a b) = true := by
  cases b
  · cases a <;> rfl
  · rw [h rfl]
    rfl

/-- An entry that is one legal code or another is legal. -/
theorem legalSym_ite {std : Std} {p : Prop} [Decidable p] {a b : SymCode} (ha : legalSym std a = true)
    (hb : legalSym std b = true) : legalSym std (if p then a else b) = true := by
  split
  · exact ha
  · exact hb

/-- Every entry of an encoded frame is a code of its standard (R127, R151, R171, R200). -/
theorem legalSym_frameOf (std : Std) (c : CivilTime) {k : Nat} (h : k < 60) :
    legalSym std ((frameOf std c)[k]) = true := by
  cases std <;> simp only [frameOf]
  case wwvb => exact wwvbFrame_getElem c h ▸ legalSym_ite rfl (legalSym_dataSym _ _)
  case dcf77 => exact dcf77Frame_getElem c h ▸ legalSym_ite rfl (legalSym_dataSym _ _)
  case jjy => exact jjyFrame_getElem c h ▸ legalSym_ite rfl (legalSym_dataSym _ _)
  case msf => exact msfFrame_getElem c h ▸ legalSym_ite rfl (legalSym_msfSym msfA_of_msfB)

/-- A frame that is all `ZERO` is legal for every standard. -/
theorem legalSym_zeros (std : Std) {k : Nat} (h : k < 60) : legalSym std (Frame.zeros[k]) = true := by
  rw [zeros_getElem h]
  exact legalSym_zero std

/-- Reading a legal frame never gives a reserved code, at an index in range or not (R22, R42). -/
theorem State.FramesLegal.frameRead_lt_six (hs : s.FramesLegal) (std : Std) (index : Int) :
    (s.frameRead std index).toNat < 6 := by
  by_cases hout : index < 0 ∨ 59 < index
  · rw [frameRead_out hout]
    decide
  · obtain ⟨k, rfl⟩ := Int.eq_ofNat_of_zero_le (show 0 ≤ index by omega)
    have hk : k < 60 := by omega
    rw [frameRead_in hk]
    exact toNat_lt_six_of_legalSym (hs std k hk)

/-! ### The statements -/

/-- Settles O54: a frame after a step is the one before it, all `ZERO`, or encoded, and each of these is legal. -/
theorem stepKeepsFramesLegal : Obligations.StepKeepsFramesLegal := by
  intro s t hs hstep std k hk
  rcases step_frame_cases hstep std with hkept | hreset | ⟨c, _, hwritten⟩
  · simpa only [hkept] using hs std k hk
  · simpa only [hreset] using legalSym_zeros std hk
  · simpa only [hwritten] using legalSym_frameOf std c hk

/-- Settles O55: a step that does not keep a frame makes it one of the two kinds. -/
theorem stepKeepsFramesEncoded : Obligations.StepKeepsFramesEncoded := by
  intro s t hs hstep std
  rcases step_frame_cases hstep std with hkept | hchanged
  · rw [hkept]
    exact hs std
  · exact hchanged

/-- Settles O25: the answer is the symbol read, widened to 32 bits. -/
theorem symNeverAnswersReserved : Obligations.SymNeverAnswersReserved := by
  intro index s i hs hi
  obtain ⟨std, hexec⟩ := exec_sym_eq s hi
  have hread := hs.frameRead_lt_six std index
  refine ⟨(s.frameRead std index).setWidth 32, hexec, ?_⟩
  rw [BitVec.toNat_setWidth]
  omega

/-- Settles O48: such an operation is one answer. -/
theorem nonWritersLeaveState : Obligations.NonWritersLeaveState := fun _ s h => exec_eq_answer h s

/-- Settles O49: an `ENC` that has a next state is one frame write and the response (0, 0). -/
theorem encChangesOnlyItsFrame : Obligations.EncChangesOnlyItsFrame := by
  intro i s t std htarget hexec
  obtain ⟨c, henc⟩ := exec_eq_encodeMinute htarget
  obtain ⟨_, rfl⟩ := encodeMinute_next (henc ▸ hexec)
  refine ⟨fun other hother => ?_, by simp, by simp, by simp, by simp⟩
  rw [State.respond_frame, s.frameWrite_frame_other hother]

/-- Settles O51: both runs are the run from no responses, with different responses recorded before it. -/
theorem responsesNeverRead : Obligations.ResponsesNeverRead := by
  intro i s t hexec
  have hrun : ∀ l, exec i { s with responses := l } =
      mapNext (State.recordBefore l) (exec i { s with responses := [] }) := fun l => by
    rw [← (unseen_recordBefore i l).exec_comm]
    simp [State.recordBefore]
  obtain ⟨u, hu, rfl⟩ := mapNext_eq_next ((hrun s.responses).symm.trans hexec)
  obtain ⟨r, hr⟩ := exec_adds_one_response hu
  refine ⟨r, by simp [State.recordBefore, hr], fun l => ?_⟩
  rw [hrun, hu]
  simp [State.recordBefore, hr]

/-- Settles O53: `SETSEL` overwrites `SEL`; no other instruction of the hypothesis sees it. -/
theorem selReadBySelForms : Obligations.SelReadBySelForms := by
  intro i s t v hreads hexec
  by_cases hw : ∃ w, i = .setSel w
  · obtain ⟨w, rfl⟩ := hw
    exact ⟨t, hexec, rfl, rfl, fun _ => rfl, .inl ⟨⟨w, rfl⟩, rfl⟩⟩
  · have hunseen := unseen_setSel hreads (fun w hi => hw ⟨w, hi⟩) v
    have hrun : exec i (s.setSel v) = .next (t.setSel v) := by rw [hunseen.exec_comm, hexec, mapNext_next]
    exact ⟨t.setSel v, hrun, rfl, rfl, fun std => t.setSel_frame v std, .inr rfl⟩

/-- Settles O56: every frame of the reset state is all `ZERO`. -/
theorem resetFramesMeetInvariants : Obligations.ResetFramesMeetInvariants := by
  refine ⟨fun std k hk => ?_, fun std => .inl (State.reset_frame std)⟩
  simpa only [State.reset_frame] using legalSym_zeros std hk

end Sys2Proof.Machine
end

section
/-! PROOFS. The family of the memory and the ports: which instruction an event runs, reading a frame outside its
range, and runs in which every event is safe. -/

namespace Sys2Proof.Machine

open Sys2Proof.Claims

variable {s t : State}

/-! ### One step, by the event it takes -/

section StepByEvent

variable {rest : List HostEvent}

/-- A reset event is taken off the port and performed (R238). -/
theorem step_of_reset (h : s.events = .reset :: rest) : step s = resetCore { s with events := rest } := by
  simp only [step, takeEvent_cons h]

/-- A request that decodes is taken off the port, and its instruction runs on what is left (R52, R76). -/
theorem step_of_decode_ok {r : Request} {i : Instr} (h : s.events = .request r :: rest) (hd : decode r = .ok i) :
    step s = exec i { s with events := rest } := by
  simp only [step, takeEvent_cons h, hd]

/-- A request with an ILLEGAL word is taken off the port and answered (1, 0) (R222). -/
theorem step_of_decode_error {r : Request} {e : Illegal} (h : s.events = .request r :: rest)
    (hd : decode r = .error e) : step s = raiseIllegal { s with events := rest } := by
  simp only [step, takeEvent_cons h, hd]

end StepByEvent

/-! ### Reading outside a frame -/

/-- A `SYM` of any standard answers 0 for an index outside the frame (R42, R220). -/
theorem symbolForSecond_out {index : Int} (h : index < 0 ∨ 59 < index) (std : Std) (s : State) :
    symbolForSecond std index s = .next (answered s 0) := by
  rw [symbolForSecond, frameRead_out h]
  rfl

/-! ### Instructions that cannot fault -/

/-- An instruction with a civil time encodes it for some standard (R129, R153, R173, R202, R212). -/
theorem exec_eq_encodeMinute_of_civilTime {i : Instr} {c : CivilTime} (h : civilTimeOf i = some c) (s : State) :
    ∃ std, exec i s = encodeMinute std (frameOf std) c s := by
  cases i <;> simp only [civilTimeOf, Option.some.injEq, reduceCtorEq] at h <;> subst h
  case encWwvb => exact ⟨.wwvb, rfl⟩
  case encDcf77 => exact ⟨.dcf77, rfl⟩
  case encJjy => exact ⟨.jjy, rfl⟩
  case encMsf => exact ⟨.msf, rfl⟩
  case encSel => exact ⟨s.live, execEncSel_eq _ s⟩

/-- An instruction without a civil time has a next state: it may write a register, and it answers (R39, R226). -/
theorem exec_next_of_no_civilTime {i : Instr} (h : civilTimeOf i = none) (s : State) :
    ∃ u, exec i s = .next u := by
  by_cases hw : writesState i = false
  · obtain ⟨res, hres⟩ := exec_eq_answer hw s
    exact ⟨_, hres⟩
  · cases i <;> simp only [writesState, not_true_eq_false] at hw
    case setSel v => exact ⟨_, rfl⟩
    case setJjyf f => exact ⟨_, rfl⟩
    all_goals cases h

/-- A safe instruction has a next state, from every state (R225, R245). -/
theorem exec_next_of_safeInstr {i : Instr} (h : safeInstr i = true) (s : State) : ∃ u, exec i s = .next u := by
  unfold safeInstr at h
  split at h
  next c hc =>
    obtain ⟨std, hexec⟩ := exec_eq_encodeMinute_of_civilTime hc s
    rcases encodeMinute_cases std (frameOf std) c s with ⟨_, hnext⟩ | ⟨hinvalid, _⟩
    · exact ⟨_, hexec.trans hnext⟩
    · cases h.symm.trans hinvalid
  next hc => exact exec_next_of_no_civilTime hc s

/-! ### Runs over safe events -/

/-- The number of responses that a list of host events calls for: one per request, none per reset (R56, R238). -/
def responsesDue (l : List HostEvent) : Nat := (l.filter fun e => e != .reset).length

@[simp] theorem responsesDue_nil : responsesDue [] = 0 := rfl

@[simp] theorem responsesDue_reset (l : List HostEvent) : responsesDue (.reset :: l) = responsesDue l := rfl

@[simp] theorem responsesDue_request (r : Request) (l : List HostEvent) :
    responsesDue (.request r :: l) = responsesDue l + 1 := rfl

theorem responsesDue_cons (e : HostEvent) (l : List HostEvent) :
    responsesDue (e :: l) = responsesDue [e] + responsesDue l := by
  cases e <;> simp [Nat.add_comm]

/-- A step on a safe event has a next state: the event is off the port, and a request has its one response (R52, R56,
R225). -/
theorem step_of_safeEvent {e : HostEvent} {rest : List HostEvent} (h : s.events = e :: rest)
    (hsafe : safeEvent e = true) :
    ∃ u, step s = .next u ∧ u.events = rest ∧ u.responses.length = s.responses.length + responsesDue [e] := by
  cases e with
  | reset => exact ⟨_, step_of_reset h, rfl, rfl⟩
  | request r =>
    cases hd : decode r with
    | error e => exact ⟨_, step_of_decode_error h hd, rfl, by simp⟩
    | ok i =>
      have hi : safeInstr i = true := by simpa only [safeEvent, hd] using hsafe
      obtain ⟨u, hexec⟩ := exec_next_of_safeInstr hi { s with events := rest }
      obtain ⟨v, res, hv, rfl⟩ := exec_cases hexec
      obtain ⟨hevents, hresponses⟩ := hv.ports
      exact ⟨_, (step_of_decode_ok h hd).trans hexec, hevents, by simp [hresponses]⟩

/-- A run goes on from the next state of its first step. -/
theorem run_succ_of_step (h : step s = .next t) (k : Nat) : core.run (k + 1) s = core.run k t := by
  have hcore : core.step s = .next t := h
  simp only [Host.Core.run, hcore]

/-- A run over a list of safe events takes them all and gives the responses due (R52, R56, R245). -/
theorem run_of_safeEvents {l : List HostEvent} (h : s.events = l) (hsafe : l.all safeEvent = true) :
    ∃ t : State, core.run l.length s = .next t ∧ t.events = [] ∧
      t.responses.length = s.responses.length + responsesDue l := by
  induction l generalizing s with
  | nil => exact ⟨s, rfl, h, rfl⟩
  | cons e rest ih =>
    obtain ⟨he, hrest⟩ : safeEvent e = true ∧ rest.all safeEvent = true := by
      simpa only [List.all_cons, Bool.and_eq_true] using hsafe
    obtain ⟨u, hstep, hevents, hfirst⟩ := step_of_safeEvent h he
    obtain ⟨t, hrun, hempty, hothers⟩ := ih hevents hrest
    refine ⟨t, (run_succ_of_step hstep rest.length).trans hrun, hempty, ?_⟩
    rw [hothers, hfirst, responsesDue_cons e rest, Nat.add_assoc]

/-! ### The statements -/

/-- Settles O14, by induction on the request port: each step has a next state with one event less. -/
theorem safeRunsComplete : Obligations.SafeRunsComplete := fun _ hsafe => run_of_safeEvents rfl hsafe

/-- Settles O7: it is the equation of a step on a request that decodes. -/
theorem stepRunsDecodedInstruction : Obligations.StepRunsDecodedInstruction :=
  fun _ _ _ _ hevents hdecode => step_of_decode_ok hevents hdecode

/-- Settles O24: every form reads one standard's frame, and outside it the read gives `ZERO`. -/
theorem symOutOfRangeIsZero : Obligations.SymOutOfRangeIsZero := by
  intro index s hout
  have hzero := fun std => symbolForSecond_out hout std s
  exact ⟨hzero .wwvb, hzero .dcf77, hzero .jjy, hzero .msf, hzero s.live⟩

end Sys2Proof.Machine
end

section
/-! PROOFS. The family of the encoding: which words decode, the rows of the opcode table, the operand bits each format
reads, what the assembler writes, and the response each request gets. -/

namespace Sys2Proof.Machine

open Sys2Proof.Claims

/-! ### The decoder by operation class -/

/-- What `OP` and the operands fix of a request's instruction, before `STD`, `D` and `M` choose among the forms
(R58, R59, R61). -/
inductive OpClass where
  /-- One instruction, for every class outside OP 4 to 8. -/
  | plain (i : Instr)
  /-- OP 4: a form for each value of `M`. -/
  | parity (even odd : Instr)
  /-- OP 5 to 8: a form for each standard, and the dispatch form. -/
  | standard (wwvb dcf77 jjy msf sel : Instr)

/-- The class of an `OP` below 0xD, with the operands its format reads (R58, R62). -/
def classOf (op : Nat) (a : Opa) (b : Opb) : OpClass :=
  match op with
  | 0x0 => .plain .nop
  | 0x1 => .plain (.bcd (opbNumber b))
  | 0x2 => .plain (.pbcd (opbNumber b))
  | 0x3 => .plain (.rev8 (b.extractLsb' 0 8))
  | 0x4 => .parity (.parE a (opbFrom b) (opbTo b)) (.parO a (opbFrom b) (opbTo b))
  | 0x5 =>
    let t := civilTimeOfOpa a
    .standard (.encWwvb t) (.encDcf77 t) (.encJjy t) (.encMsf t) (.encSel t)
  | 0x6 =>
    let index := opbIndex b
    .standard (.symWwvb index) (.symDcf77 index) (.symJjy index) (.symMsf index) (.symSel index)
  | 0x7 =>
    let sym := opbSym b
    let ms := opaMs a
    .standard (.lvlWwvb sym ms) (.lvlDcf77 sym ms) (.lvlJjy sym ms) (.lvlMsf sym ms) (.lvlSel sym ms)
  | 0x8 => .standard .freqWwvb .freqDcf77 .freqJjy .freqMsf .freqSel
  | 0x9 => .plain (.setSel (b.extractLsb' 0 2))
  | 0xA => .plain .getSel
  | 0xB => .plain (.setJjyf (b.extractLsb' 0 1))
  | _ => .plain .getJjyf

/-- The form of a class that `STD`, `D` and `M` of the command word choose, or why they choose none (R73). -/
def OpClass.choose (c : Cmd) : OpClass → Except Illegal Instr
  | .plain i => decodePlain c i
  | .parity even odd => decodeParity c even odd
  | .standard wwvb dcf77 jjy msf sel => decodeStandardForm c wwvb dcf77 jjy msf sel

/-- Decoding is the two tests on `OP` and the reserved bits, then the choice within the class (R76). -/
theorem decode_eq (c : Cmd) (a : Opa) (b : Opb) :
    decode ⟨c, a, b⟩ =
      if 13 ≤ c.toNat / 4096 then .error .reservedOp
      else if c.toNat % 256 ≠ 0 then .error .reservedBits
      else (classOf (c.toNat / 4096) a b).choose c := by
  simp only [decode, ne_zero_iff_toNat, cmdReserved_toNat, cmdOp_toNat]
  split_ifs with hop hlow
  · rfl
  · rfl
  · generalize c.toNat / 4096 = op at hop
    interval_cases op <;> rfl

/-- A word that decodes passed both tests. -/
theorem decode_ok {c : Cmd} {a : Opa} {b : Opb} {i : Instr} (h : decode ⟨c, a, b⟩ = .ok i) :
    c.toNat / 4096 < 13 ∧ c.toNat % 256 = 0 ∧ (classOf (c.toNat / 4096) a b).choose c = .ok i := by
  rw [decode_eq] at h
  split_ifs at h with hop hlow
  exact ⟨by omega, by omega, h⟩

/-! ### Which words are refused -/

/-- The kind of class an `OP` has. -/
theorem classOf_kind (op : Nat) (a : Opa) (b : Opb) :
    (op = 4 ∧ ∃ even odd, classOf op a b = .parity even odd) ∨
      ((5 ≤ op ∧ op ≤ 8) ∧ ∃ wwvb dcf77 jjy msf sel, classOf op a b = .standard wwvb dcf77 jjy msf sel) ∨
      ((op ≠ 4 ∧ ¬(5 ≤ op ∧ op ≤ 8)) ∧ ∃ i, classOf op a b = .plain i) := by
  unfold classOf
  split
  case h_13 =>
    simp only [imp_false] at *
    exact .inr (.inr ⟨by omega, _, rfl⟩)
  all_goals simp

/-- The choice within a class fails on conditions (c), (d) and (e) of R73. -/
theorem choose_classOf_error_iff (c : Cmd) (op : Nat) (a : Opa) (b : Opb) :
    (∃ e, (classOf op a b).choose c = .error e) ↔
      (¬(5 ≤ op ∧ op ≤ 8) ∧ c.toNat / 512 % 8 ≠ 0) ∨ (op ≠ 4 ∧ c.toNat / 256 % 2 ≠ 0) ∨
        ((5 ≤ op ∧ op ≤ 8) ∧ c.toNat / 512 % 2 = 1 ∧ c.toNat / 1024 % 4 ≠ 0) := by
  rcases classOf_kind op a b with ⟨hop, _, _, h⟩ | ⟨hop, _, _, _, _, _, h⟩ | ⟨hop, _, h⟩ <;> rw [h]
  · rw [OpClass.choose, decodeParity_error_iff]
    omega
  · rw [OpClass.choose, decodeStandardForm_error_iff]
    omega
  · rw [OpClass.choose, decodePlain_error_iff]
    omega

/-- Settles O2: the two tests refuse on conditions (a) and (b), the choice within the class on the others. -/
theorem decodeRefusesExactlyIllegalWords : Obligations.DecodeRefusesExactlyIllegalWords := by
  intro c a b
  rw [decode_eq, illegalWord]
  split_ifs with hop hlow
  · exact ⟨fun _ => .inl hop, fun _ => ⟨_, rfl⟩⟩
  · exact ⟨fun _ => .inr (.inl hlow), fun _ => ⟨_, rfl⟩⟩
  · rw [choose_classOf_error_iff]
    simp only [hop, hlow, false_or]

/-- A request that decodes has no ILLEGAL word. -/
theorem not_illegalWord_of_decode_ok {r : Request} {i : Instr} (h : decode r = .ok i) : ¬illegalWord r.cmd := by
  intro hill
  obtain ⟨e, he⟩ := (decodeRefusesExactlyIllegalWords r.cmd r.opa r.opb).mpr hill
  cases h.symm.trans he

/-! ### The rows of the opcode table -/

/-- `i` is the instruction of the table word `w`, and its operands fit. -/
def IsRow (w : Nat) (i : Instr) : Prop := (encode i).cmd.toNat = w ∧ i.wellFormed = true

/-- Each form of a class is the row of its own word: `OP` at bit 12, `STD` at bit 10, `D` at bit 9, `M` at bit 8
(R57). -/
def OpClass.Rows (op : Nat) : OpClass → Prop
  | .plain i => IsRow (4096 * op) i
  | .parity even odd => IsRow (4096 * op) even ∧ IsRow (4096 * op + 256) odd
  | .standard wwvb dcf77 jjy msf sel =>
    IsRow (4096 * op) wwvb ∧ IsRow (4096 * op + 1024) dcf77 ∧ IsRow (4096 * op + 2048) jjy ∧
      IsRow (4096 * op + 3072) msf ∧ IsRow (4096 * op + 512) sel

theorem opbNumber_lt (b : Opb) : opbNumber b < 65536 := b.isLt

theorem opbFrom_lt (b : Opb) : opbFrom b < 64 := BitVec.isLt _

theorem opbTo_lt (b : Opb) : opbTo b < 64 := BitVec.isLt _

theorem opaMs_lt (a : Opa) : opaMs a < 65536 := BitVec.isLt _

/-- The forms of every class are rows of the table. -/
theorem classOf_rows {op : Nat} (hop : op < 13) (a : Opa) (b : Opb) : (classOf op a b).Rows op := by
  interval_cases op <;>
    simp [classOf, OpClass.Rows, IsRow, encode, encodeN, encodeNumber, encodeIndex, encodeRange, encodeTime,
      encodeLevel, Instr.wellFormed, opbNumber_lt, opbFrom_lt, opbTo_lt, opaMs_lt, opbIndex_fits,
      civilTimeOfOpa_fits]

/-- A row of the class `OP` is the row of the command word when the twelve bits below `OP` agree. -/
theorem IsRow.of_low {c : Cmd} {k : Nat} {i : Instr} (h : IsRow (4096 * (c.toNat / 4096) + k) i)
    (hk : c.toNat % 4096 = k) : IsRow c.toNat i := by
  rwa [← hk, Nat.div_add_mod] at h

/-- The form that a command word chooses among rows is the row of that word. -/
theorem OpClass.Rows.of_choose {cls : OpClass} {c : Cmd} {i : Instr} (hrows : cls.Rows (c.toNat / 4096))
    (hlow : c.toNat % 256 = 0) (h : cls.choose c = .ok i) : IsRow c.toNat i := by
  cases cls with
  | plain j =>
    obtain ⟨hmid, hm, rfl⟩ := decodePlain_ok h
    exact hrows.of_low (k := 0) (by omega)
  | parity even odd =>
    obtain ⟨heven, hodd⟩ := hrows
    obtain ⟨hmid, ⟨hm, rfl⟩ | ⟨hm, rfl⟩⟩ := decodeParity_ok h
    · exact heven.of_low (k := 0) (by omega)
    · exact hodd.of_low (by omega)
  | standard wwvb dcf77 jjy msf sel =>
    obtain ⟨hwwvb, hdcf77, hjjy, hmsf, hsel⟩ := hrows
    obtain ⟨hm, ⟨hmid, rfl⟩ | ⟨hmid, rfl⟩ | ⟨hmid, rfl⟩ | ⟨hmid, rfl⟩ | ⟨hmid, rfl⟩⟩ := decodeStandardForm_ok h
    · exact hwwvb.of_low (k := 0) (by omega)
    · exact hdcf77.of_low (by omega)
    · exact hjjy.of_low (by omega)
    · exact hmsf.of_low (by omega)
    · exact hsel.of_low (by omega)

/-- Settles O3: decoding chooses one form of a class, and the forms of a class are rows. -/
theorem legalWordIsTableRow : Obligations.LegalWordIsTableRow := by
  intro r i h
  obtain ⟨hop, hlow, hchoose⟩ := decode_ok h
  obtain ⟨hcmd, hwf⟩ := (classOf_rows hop r.opa r.opb).of_choose hlow hchoose
  exact ⟨BitVec.eq_of_toNat_eq hcmd, hwf⟩

/-! ### Reading back an encoding -/

/-- The instruction of `i`'s table row with the operands that its format reads from (`a`, `b`) (R62, R64 to R67). -/
def withOperands (i : Instr) (a : Opa) (b : Opb) : Instr :=
  match i with
  | .nop => .nop
  | .bcd _ => .bcd (opbNumber b)
  | .pbcd _ => .pbcd (opbNumber b)
  | .rev8 _ => .rev8 (b.extractLsb' 0 8)
  | .parE _ _ _ => .parE a (opbFrom b) (opbTo b)
  | .parO _ _ _ => .parO a (opbFrom b) (opbTo b)
  | .encWwvb _ => .encWwvb (civilTimeOfOpa a)
  | .symWwvb _ => .symWwvb (opbIndex b)
  | .lvlWwvb _ _ => .lvlWwvb (opbSym b) (opaMs a)
  | .freqWwvb => .freqWwvb
  | .encDcf77 _ => .encDcf77 (civilTimeOfOpa a)
  | .symDcf77 _ => .symDcf77 (opbIndex b)
  | .lvlDcf77 _ _ => .lvlDcf77 (opbSym b) (opaMs a)
  | .freqDcf77 => .freqDcf77
  | .encJjy _ => .encJjy (civilTimeOfOpa a)
  | .symJjy _ => .symJjy (opbIndex b)
  | .lvlJjy _ _ => .lvlJjy (opbSym b) (opaMs a)
  | .freqJjy => .freqJjy
  | .encMsf _ => .encMsf (civilTimeOfOpa a)
  | .symMsf _ => .symMsf (opbIndex b)
  | .lvlMsf _ _ => .lvlMsf (opbSym b) (opaMs a)
  | .freqMsf => .freqMsf
  | .encSel _ => .encSel (civilTimeOfOpa a)
  | .symSel _ => .symSel (opbIndex b)
  | .lvlSel _ _ => .lvlSel (opbSym b) (opaMs a)
  | .freqSel => .freqSel
  | .setSel _ => .setSel (b.extractLsb' 0 2)
  | .getSel => .getSel
  | .setJjyf _ => .setJjyf (b.extractLsb' 0 1)
  | .getJjyf => .getJjyf

/-- The word of a row decodes to that row's instruction, whatever the operands (R68, R76). -/
theorem decode_tableWord (i : Instr) (a : Opa) (b : Opb) :
    decode ⟨(encode i).cmd, a, b⟩ = .ok (withOperands i a b) := by
  cases i <;>
    simp [decode_eq, classOf, OpClass.choose, decodePlain, decodeParity, decodeStandardForm, cmdStd, cmdD, cmdM,
      stdOfCode, encode, encodeN, encodeNumber, encodeIndex, encodeRange, encodeTime, encodeLevel, withOperands]

/-- An operand narrower than `OPB` comes back from its low bits. -/
theorem extractLsb'_setWidth_opb {w : Nat} (hw : w ≤ 16) (v : BitVec w) :
    (v.setWidth 16).extractLsb' 0 w = v := by
  ext k hk
  have hk16 : k < 16 := by omega
  simp [hk, hk16]

theorem opbNumber_ofNat {n : Nat} (h : n < 65536) : opbNumber (BitVec.ofNat 16 n) = n :=
  Nat.mod_eq_of_lt h

/-- No operand bit is lost: what a row reads back from the encoding of a well-formed instruction is that
instruction. -/
theorem withOperands_encode {i : Instr} (h : i.wellFormed = true) :
    withOperands i (encode i).opa (encode i).opb = i := by
  cases i <;> simp only [withOperands, encode, encodeNumber, encodeIndex, encodeRange, encodeTime, encodeLevel]
  case bcd n | pbcd n => rw [opbNumber_ofNat (of_decide_eq_true h)]
  case parE bits lo hi | parO bits lo hi =>
    obtain ⟨hlo, hhi⟩ : lo < 64 ∧ hi < 64 := by simpa [Instr.wellFormed] using h
    obtain ⟨hfrom, hto⟩ := opbFrom_opbTo hlo hhi
    rw [hfrom, hto]
  case encWwvb t | encDcf77 t | encJjy t | encMsf t | encSel t => rw [civilTimeOfOpa_opaOfCivilTime h]
  case symWwvb index | symDcf77 index | symJjy index | symMsf index | symSel index => rw [opbIndex_ofInt h]
  case lvlWwvb sym ms | lvlDcf77 sym ms | lvlJjy sym ms | lvlMsf sym ms | lvlSel sym ms =>
    rw [opbSym, extractLsb'_setWidth_opb (by decide), opaMs_ofNat (of_decide_eq_true h)]
  case rev8 v | setSel v | setJjyf v => rw [extractLsb'_setWidth_opb (by decide)]

/-- Settles O5: the table word gives the row back, and the row reads its operands back. -/
theorem decodeEncodeAgree : Obligations.DecodeEncodeAgree := by
  intro i h
  exact (decode_tableWord i (encode i).opa (encode i).opb).trans (congrArg Except.ok (withOperands_encode h))

/-- Settles O1: each legal word is the table word of its row; for the others the decoder's tests are evaluated. -/
theorem workedWordsDecode : Obligations.WorkedWordsDecode :=
  ⟨fun a b => ⟨_, decode_tableWord (.symDcf77 0) a b⟩,
    fun a b => ⟨_, _, decode_tableWord (.lvlSel 0 0) a b⟩,
    fun a b => ⟨_, _, decode_tableWord (.parO 0 0 0) a b⟩,
    decode_tableWord .freqJjy,
    fun a b => ⟨_, decode_tableWord (.encMsf {}) a b⟩,
    fun a b => ⟨_, decode_tableWord (.setJjyf 0) a b⟩,
    fun a b => by simp [decode_eq, classOf, OpClass.choose, decodeStandardForm, cmdM, cmdD, cmdStd],
    fun a b => by simp [decode_eq],
    fun a b => by simp [decode_eq, classOf, OpClass.choose, decodeParity],
    by decide⟩

/-! ### Operand bits that a format does not read -/

/-- A mask that is all ones at a field leaves the field's value. -/
theorem extractLsb'_and_of_ones {w : Nat} (x : BitVec w) {m : BitVec w} {k n : Nat}
    (hm : m.extractLsb' k n = BitVec.allOnes n) : (x &&& m).extractLsb' k n = x.extractLsb' k n := by
  rw [BitVec.extractLsb'_and, hm, BitVec.and_allOnes]

/-- The fields of a civil time lie in the 57 bits that format T reads (R66). -/
theorem civilTimeOfOpa_and (a : Opa) : civilTimeOfOpa (a &&& 0x01FFFFFFFFFFFFFF) = civilTimeOfOpa a := by
  unfold civilTimeOfOpa
  congr 1
  case e_isdst | e_todayDST | e_tomorrowDST => simp
  all_goals rw [extractLsb'_and_of_ones a (by decide)]

theorem opbFrom_and (b : Opb) : opbFrom (b &&& 0x3F3F) = opbFrom b := by
  rw [opbFrom, extractLsb'_and_of_ones b (by decide), opbFrom]

theorem opbTo_and (b : Opb) : opbTo (b &&& 0x3F3F) = opbTo b := by
  rw [opbTo, extractLsb'_and_of_ones b (by decide), opbTo]

theorem opbSym_and (b : Opb) : opbSym (b &&& 0x0007) = opbSym b := extractLsb'_and_of_ones b (by decide)

theorem opaMs_and (a : Opa) : opaMs (a &&& 0xFFFF) = opaMs a := by
  rw [opaMs, extractLsb'_and_of_ones a (by decide), opaMs]

/-- A class keeps its operands when the bits its format does not read are cleared (R62, R64 to R68). -/
theorem classOf_readMask (c : Cmd) (a : Opa) (b : Opb) :
    classOf (c.toNat / 4096) (a &&& (readMask c).1) (b &&& (readMask c).2) = classOf (c.toNat / 4096) a b := by
  have hopa : a &&& 0xFFFFFFFFFFFFFFFF = a := BitVec.and_allOnes
  have hopb : b &&& 0xFFFF = b := BitVec.and_allOnes
  unfold readMask classOf
  generalize c.toNat / 4096 = op
  split
  case h_2 | h_3 | h_7 => simp only [hopb]
  case h_4 | h_10 | h_12 => simp only; rw [extractLsb'_and_of_ones b (by decide)]
  case h_5 => simp only [hopa, opbFrom_and, opbTo_and]
  case h_6 => simp only [civilTimeOfOpa_and]
  case h_8 => simp only [opbSym_and, opaMs_and]
  all_goals rfl

/-- Decoding does not see the operand bits that the word's format does not read (R68). -/
theorem decode_readMask (c : Cmd) (a : Opa) (b : Opb) :
    decode ⟨c, a &&& (readMask c).1, b &&& (readMask c).2⟩ = decode ⟨c, a, b⟩ := by
  rw [decode_eq, decode_eq, classOf_readMask]

/-- A step on a request sees only what the request decodes to (R52, R68). -/
theorem step_request_congr {r r' : Request} (h : decode r = decode r') (s : State) (rest : List HostEvent) :
    step { s with events := .request r :: rest } = step { s with events := .request r' :: rest } := by
  simp only [step, State.takeEvent, h]

/-- Settles O4: both requests decode like the one with the unread bits cleared, and a step only sees what a request
decodes to. -/
theorem unreadOperandBitsIgnored : Obligations.UnreadOperandBitsIgnored := by
  intro c a a' b b' ha hb
  have hdecode : decode ⟨c, a, b⟩ = decode ⟨c, a', b'⟩ := by
    rw [← decode_readMask c a b, ha, hb, decode_readMask]
  exact ⟨hdecode, step_request_congr hdecode⟩

/-! ### The assembler -/

/-- The request, if there is one, has the command word of a table row. -/
def TableWords (o : Option Request) : Prop := ∀ r ∈ o, ∃ i, r.cmd = (encode i).cmd

theorem tableWords_none : TableWords none := fun _ h => by cases h

theorem tableWords_encode (i : Instr) : TableWords (some (encode i)) := by
  rintro r ⟨⟩
  exact ⟨i, rfl⟩

theorem tableWords_map {α : Type} {f : α → Request} (hf : ∀ x, ∃ i, (f x).cmd = (encode i).cmd) (o : Option α) :
    TableWords (o.map f) := by
  intro r hr
  obtain ⟨x, -, rfl⟩ := Option.map_eq_some_iff.mp hr
  exact hf x

theorem tableWords_asmNone (i : Instr) (arg : List Char) : TableWords (asmNone i arg) := by
  unfold asmNone
  split
  · exact tableWords_encode i
  · exact tableWords_none

theorem tableWords_asmNumber (bits : Nat) (mk : Nat → Instr) (arg : List Char) :
    TableWords (asmNumber bits mk arg) :=
  tableWords_map (fun n => ⟨mk n, rfl⟩) _

theorem tableWords_asmNamed (names : List (List Char × Nat)) (bits : Nat) (mk : Nat → Instr) (arg : List Char) :
    TableWords (asmNamed names bits mk arg) :=
  tableWords_map (fun n => ⟨mk n, rfl⟩) _

theorem tableWords_asmIndex (mk : Int → Instr) (arg : List Char) : TableWords (asmIndex mk arg) :=
  tableWords_map (fun index => ⟨mk index, rfl⟩) _

/-- A civil time given as a number replaces `OPA`, not the command word (R79). -/
theorem tableWords_asmTime (mk : CivilTime → Instr) (arg : List Char) : TableWords (asmTime mk arg) := by
  unfold asmTime
  refine tableWords_map (fun a => ?_) _
  exact ⟨mk (civilTimeOfOpa a), rfl⟩

theorem tableWords_asmRange (mk : BitVec 64 → Nat → Nat → Instr) (arg : List Char) :
    TableWords (asmRange mk arg) := by
  unfold asmRange
  split
  · split
    · exact tableWords_encode _
    · exact tableWords_none
  · exact tableWords_none

theorem tableWords_asmLevel (mk : SymCode → Nat → Instr) (arg : List Char) : TableWords (asmLevel mk arg) := by
  unfold asmLevel
  split
  · split
    · exact tableWords_encode _
    · exact tableWords_none
  · exact tableWords_none

/-- The part after the dot chooses among the requests of one operation, or none (R78). -/
theorem tableWords_chooseStandard {α : Type} {f : α → Option Request} (hf : ∀ x, TableWords (f x))
    (name : List Char) (wwvb dcf77 jjy msf sel : α) :
    TableWords (chooseStandard name (f wwvb) (f dcf77) (f jjy) (f msf) (f sel)) := by
  unfold chooseStandard
  split
  · exact hf sel
  · split
    · exact hf wwvb
    · exact hf dcf77
    · exact hf jjy
    · exact hf msf
    · exact tableWords_none

/-- The assembler takes command words from the encoder alone (R77, R78). -/
theorem tableWords_assembleMnemonic (m arg : List Char) : TableWords (assembleMnemonic m arg) := by
  unfold assembleMnemonic
  split
  case h_1 | h_12 | h_14 => exact tableWords_asmNone _ arg
  case h_2 | h_3 | h_4 => exact tableWords_asmNumber _ _ arg
  case h_5 | h_6 => exact tableWords_asmRange _ arg
  case h_7 => exact tableWords_chooseStandard (tableWords_asmTime · arg) _ _ _ _ _ _
  case h_8 => exact tableWords_chooseStandard (tableWords_asmIndex · arg) _ _ _ _ _ _
  case h_9 => exact tableWords_chooseStandard (tableWords_asmLevel · arg) _ _ _ _ _ _
  case h_10 => exact tableWords_chooseStandard (tableWords_asmNone · arg) _ _ _ _ _ _
  case h_11 | h_13 => exact tableWords_asmNamed _ _ _ arg
  case h_15 => exact tableWords_none

/-- Settles O6: an assembled request has a table word, so it decodes, and what it decodes to is that word's row. -/
theorem assembledLinesAreLegal : Obligations.AssembledLinesAreLegal := by
  intro line r h
  obtain ⟨i, hi⟩ := tableWords_assembleMnemonic _ _ r h
  have hdecode : decode r = .ok (withOperands i r.opa r.opb) := by
    rw [← decode_tableWord i, ← hi]
  obtain ⟨hcmd, -⟩ := legalWordIsTableRow r _ hdecode
  exact ⟨_, hdecode, hcmd⟩

/-! ### The response of a request -/

/-- Settles O12: an ILLEGAL word is answered (1, 0), and an instruction that runs on answers with `STATUS` 0. -/
theorem everyRequestGetsOneResponse : Obligations.EveryRequestGetsOneResponse := by
  intro s t r rest hevents hstep
  cases hd : decode r with
  | error e =>
    rw [step_of_decode_error hevents hd, raiseIllegal_eq] at hstep
    cases hstep
    have hill : illegalWord r.cmd := (decodeRefusesExactlyIllegalWords r.cmd r.opa r.opb).mp ⟨e, hd⟩
    exact ⟨rfl, ⟨1, 0⟩, rfl, by simpa using hill, fun _ => rfl⟩
  | ok i =>
    rw [step_of_decode_ok hevents hd] at hstep
    obtain ⟨u, res, hchange, rfl⟩ := exec_cases hstep
    obtain ⟨hrest, hresponses⟩ := hchange.ports
    have hlegal := not_illegalWord_of_decode_ok hd
    exact ⟨hrest, ⟨0, res⟩, by rw [State.respond_responses, hresponses], by simpa using hlegal, by simp⟩

end Sys2Proof.Machine
end

section
/-! PROOFS. The family of the primitives: the value each packing request answers, as a number or bit by bit. -/

namespace Sys2Proof.Machine

open Sys2Proof.Claims

/-! ### The answer of each request -/

theorem exec_bcd (n : Nat) (s : State) : exec (.bcd n) s = answer s ((bcd n).setWidth 32) := rfl

theorem exec_pbcd (n : Nat) (s : State) : exec (.pbcd n) s = answer s ((paddedBcd n).setWidth 32) := rfl

theorem exec_rev8 (b : BitVec 8) (s : State) : exec (.rev8 b) s = answer s ((reverse8 b).setWidth 32) := rfl

theorem exec_parE (bits : BitVec 64) (lo hi : Nat) (s : State) :
    exec (.parE bits lo hi) s = answer s ((parityEven bits lo hi).setWidth 32) := rfl

theorem exec_parO (bits : BitVec 64) (lo hi : Nat) (s : State) :
    exec (.parO bits lo hi) s = answer s ((parityOdd bits lo hi).setWidth 32) := rfl

theorem answer_eq_answered (s : State) (res : Res) : answer s res = .next (answered s res) := rfl

/-- A field answered in `RES` is answered as its number. -/
theorem answer_setWidth {w : Nat} (s : State) (v : BitVec w) :
    answer s (v.setWidth 32) = .next (answered s (BitVec.ofNat 32 v.toNat)) := by
  rw [BitVec.ofNat_toNat, answer_eq_answered]

/-! ### Counting the ones of a range -/

/-- The ones of an inclusive range, as the number of positions that hold one (R11). -/
theorem countOnes_eq_card (f : Nat → Bool) (lo hi : Nat) :
    countOnes f lo hi = ((Finset.Ico lo (hi + 1)).filter fun k => f k = true).card := by
  calc countOnes f lo hi = ∑ i ∈ Finset.range (hi + 1 - lo), (f (lo + i)).toNat := rfl
    _ = ∑ k ∈ Finset.Ico lo (hi + 1), (f k).toNat := by rw [Finset.sum_Ico_eq_sum_range]
    _ = _ := by
      rw [Finset.card_filter]
      exact Finset.sum_congr rfl fun k _ => by cases f k <;> rfl

theorem length_filter_range_eq_card (p : Nat → Bool) (n : Nat) :
    ((List.range n).filter p).length = ((Finset.range n).filter fun k => p k = true).card := by
  simp [Finset.card, Finset.filter, Finset.range, Multiset.range]

/-- The ones of a range of a word, counted over the positions of the whole word: past its width it has none. -/
theorem countOnes_getLsbD {w : Nat} (v : BitVec w) (lo hi : Nat) :
    countOnes v.getLsbD lo hi =
      ((List.range w).filter fun k => decide (lo ≤ k ∧ k ≤ hi) && v.getLsbD k).length := by
  rw [countOnes_eq_card, length_filter_range_eq_card]
  congr 1
  ext k
  by_cases hbit : v.getLsbD k = true
  · have hwidth : k < w := BitVec.lt_of_getLsbD hbit
    simp [hbit, hwidth]
  · simp [hbit]

/-- The value of the even parity bit (R96). -/
theorem parityEven_toNat (bits : BitVec 64) (lo hi : Nat) :
    (parityEven bits lo hi).toNat = countOnes bits.getLsbD lo hi % 2 := by
  rcases Nat.mod_two_eq_zero_or_one (countOnes bits.getLsbD lo hi) with h | h <;>
    simp [parityEven, xorRange, h]

/-- The value of the odd parity bit (R97). -/
theorem parityOdd_toNat (bits : BitVec 64) (lo hi : Nat) :
    (parityOdd bits lo hi).toNat = 1 - countOnes bits.getLsbD lo hi % 2 := by
  rcases Nat.mod_two_eq_zero_or_one (countOnes bits.getLsbD lo hi) with h | h <;>
    simp [parityOdd, parityEven, xorRange, h]

/-! ### Reversal -/

/-- Reversal is its own inverse (R95). -/
theorem reverse8_reverse8 (b : BitVec 8) : reverse8 (reverse8 b) = b := by
  refine BitVec.eq_of_getLsbD_eq fun k hk => ?_
  have hmirror : 7 - (7 - k) = k := by omega
  rw [reverse8_getLsbD _ hk, reverse8_getLsbD _ (by omega), hmirror]

/-- The bits of a reversed byte in `RES`: the byte's own mirrored, then zeros (R93, R94). -/
theorem setWidth_reverse8_getLsbD (b : BitVec 8) (k : Nat) :
    ((reverse8 b).setWidth 32).getLsbD k = (decide (k < 8) && b.getLsbD (7 - k)) := by
  rw [BitVec.getLsbD_setWidth]
  by_cases hk : k < 8
  · have h32 : k < 32 := by omega
    rw [reverse8_getLsbD b hk]
    simp [hk, h32]
  · simp [hk, BitVec.getLsbD_of_ge _ _ (Nat.le_of_not_lt hk)]

/-- Counting from either end of a byte finds the same number of ones. -/
theorem length_filter_mirror (p : Nat → Bool) :
    ((List.range 8).filter fun k => p (7 - k)).length = ((List.range 8).filter p).length := by
  have hmirror : (List.range 8).map (7 - ·) = (List.range 8).reverse := by decide
  calc ((List.range 8).filter fun k => p (7 - k)).length
      = (((List.range 8).map (7 - ·)).filter p).length := by simp [List.filter_map, Function.comp_def]
    _ = ((List.range 8).filter p).length := by rw [hmirror, List.filter_reverse, List.length_reverse]

/-! ### The statements -/

/-- Settles O19: mirroring the positions twice is the identity, and mirroring them keeps how many hold a one. -/
theorem rev8Involution : Obligations.Rev8Involution := by
  intro b s
  refine ⟨(reverse8 b).setWidth 32, exec_rev8 b s, ?_, ?_⟩
  · have hback : ((reverse8 b).setWidth 32).setWidth 8 = reverse8 b := by simp
    rw [hback, exec_rev8, reverse8_reverse8, answer_eq_answered]
  · rw [← length_filter_mirror b.getLsbD]
    congr 1
    refine List.filter_congr fun k hk => ?_
    rw [setWidth_reverse8_getLsbD, decide_eq_true (List.mem_range.mp hk), Bool.true_and]

/-- Settles O20: the model counts the ones of the range itself, and a word has none past its width. -/
theorem parityResults : Obligations.ParityResults := by
  intro bits lo hi s count
  have hcount : countOnes bits.getLsbD lo hi = count := countOnes_getLsbD bits lo hi
  constructor
  · rw [exec_parE, answer_setWidth, parityEven_toNat, hcount]
  · rw [exec_parO, answer_setWidth, parityOdd_toNat, hcount]

/-- Settles O16, by the value of plain BCD. -/
theorem bcdResult : Obligations.BcdResult := by
  intro n s
  rw [exec_bcd, answer_setWidth, bcd_toNat, tens, units]

/-- Settles O17, by the value of padded BCD. -/
theorem pbcdResult : Obligations.PbcdResult := by
  intro n s
  rw [exec_pbcd, answer_setWidth, paddedBcd_toNat, hundreds, tens, units]

/-- Settles O18, by the bits of the reversed byte. -/
theorem rev8Result : Obligations.Rev8Result := by
  intro b s
  refine ⟨(reverse8 b).setWidth 32, exec_rev8 b s, fun k hk => ?_, fun k hk => ?_⟩
  · rw [setWidth_reverse8_getLsbD, decide_eq_true hk, Bool.true_and]
  · rw [setWidth_reverse8_getLsbD, decide_eq_false (Nat.not_lt.mpr hk), Bool.false_and]

end Sys2Proof.Machine
end

section
/-! PROOFS. The family of the calendar: the month lengths and the leap-year rule, the roll-overs of `AddMinute`, and the
fields of a civil time that a frame depends on. -/

namespace Sys2Proof.Machine

open Sys2Proof.Claims

/-! ### The leap-year rule and the month lengths -/

/-- The leap-year rule of the claims is the model's (R100). -/
theorem isLeap_eq_leapYear (y : Nat) : isLeap y = leapYear y := by
  rw [Bool.eq_iff_iff]
  simp [isLeap, leapYear]

/-- The days before a year grow by that year's length (R100). -/
theorem daysBeforeYear_succ (y : Nat) :
    daysBeforeYear (y + 1) = daysBeforeYear y + (365 + (leapYear y).toNat) := by
  rw [← isLeap_eq_leapYear, isLeap, daysBeforeYear, daysBeforeYear]
  by_cases hleap : y % 4 = 0 ∧ (y % 100 ≠ 0 ∨ y % 400 = 0)
  · rw [decide_eq_true hleap, Bool.toNat_true]
    omega
  · rw [decide_eq_false hleap, Bool.toNat_false]
    omega

/-- The table of month lengths holds the model's `DaysInMonth`, and ends at month 11 (R101). -/
theorem monthLengths_getElem?_eq_some {m y d : Nat} :
    (monthLengths y)[m]? = some d ↔ m ≤ 11 ∧ daysInMonth m y = d := by
  rw [monthLengths, isLeap_eq_leapYear]
  by_cases hm : m ≤ 11
  · interval_cases m <;> simp [daysInMonth]
  · rw [List.getElem?_eq_none (Nat.not_le.mp hm)]
    simp [hm]

/-- The days before a month grow by that month's length (R101). -/
theorem sum_take_monthLengths_succ {m : Nat} (hm : m ≤ 11) (y : Nat) :
    ((monthLengths y).take (m + 1)).sum = ((monthLengths y).take m).sum + daysInMonth m y := by
  rw [List.take_add_one, monthLengths_getElem?_eq_some.mpr ⟨hm, rfl⟩]
  simp

/-- The twelve months make up the year (R100, R101). -/
theorem sum_monthLengths (y : Nat) : ((monthLengths y).take 12).sum = 365 + (leapYear y).toNat := by
  rw [monthLengths, isLeap_eq_leapYear]
  cases leapYear y <;> rfl

/-- A date within its month lies within its year. -/
theorem sum_take_monthLengths_add_le {m y d : Nat} (hm : m ≤ 11) (hd : d ≤ daysInMonth m y) :
    ((monthLengths y).take m).sum + d ≤ 365 + (leapYear y).toNat := by
  have hprefix := (monthLengths y).take_sublist_take_left (show m + 1 ≤ 12 by omega)
  have hyear := hprefix.sum_le_sum fun _ _ => Nat.zero_le _
  rw [sum_take_monthLengths_succ hm, sum_monthLengths] at hyear
  omega

theorem daysInMonth_pos {m : Nat} (hm : m ≤ 11) (y : Nat) : 0 < daysInMonth m y := by
  cases hleap : leapYear y <;> interval_cases m <;> simp [daysInMonth, hleap]

/-! ### Valid civil times -/

/-- The bounds of R103, as propositions. -/
theorem validTime_iff (t : CivilTime) : validTime t = true ↔
    t.minute ≤ 59 ∧ t.hour ≤ 23 ∧ t.second ≤ 60 ∧ 1 ≤ t.mday ∧ t.mday ≤ daysInMonth t.month t.year ∧
      t.yday ≤ 364 + (leapYear t.year).toNat ∧ t.month ≤ 11 ∧ t.wday ≤ 6 ∧ t.year < 65536 := by
  simp only [validTime, Bool.and_eq_true, decide_eq_true_eq, and_assoc]

/-- Validity is validity of the other fields, and the bound on the day of year. -/
theorem validTime_iff_yday (t : CivilTime) : validTime t = true ↔
    validTime { t with yday := 0 } = true ∧ t.yday ≤ 364 + (leapYear t.year).toNat := by
  rw [validTime_iff, validTime_iff]
  simp only [Nat.zero_le, true_and]
  tauto

/-- Settles O57: the model's bounds, with `DaysInMonth` read as the table of month lengths. -/
theorem validTimeBounds : Obligations.ValidTimeBounds := by
  intro t
  have hyear : (if isLeap t.year then 365 else 364) = 364 + (leapYear t.year).toNat := by
    rw [isLeap_eq_leapYear]
    cases leapYear t.year <;> rfl
  simp only [validTime_iff, hyear, monthLengths_getElem?_eq_some, and_assoc, exists_and_left, exists_eq_left']
  omega

/-! ### The roll-overs of `AddMinute` -/

theorem addMinute_of_midnight {t : CivilTime} (hminute : t.minute = 59) (hhour : t.hour = 23) :
    addMinute t = nextDay { t with minute := 0, hour := 0 } := by
  simp [addMinute, hminute, hhour]

/-- Settles O58: before midnight `AddMinute` stops at the hour; at midnight the month roll-over decides. -/
theorem addMinuteRollsOver : Obligations.AddMinuteRollsOver := by
  intro t
  refine ⟨fun hminute => ?_, fun hminute hhour => ?_, fun hminute hhour hmday => ?_,
    fun hminute hhour hmday hmonth => ?_, fun hminute hhour hmday hmonth => ?_⟩
  · simp [addMinute, hminute]
  · simp [addMinute, hminute, hhour]
  all_goals rw [addMinute_of_midnight hminute hhour, nextDay, rollMonth]
  · rw [if_neg (Nat.not_lt.mpr hmday)]
  · rw [if_pos (Nat.lt_succ_of_le hmday), if_neg (by simpa using hmonth)]
  · rw [if_pos (Nat.lt_succ_of_le hmday), if_pos (by simp [hmonth])]

/-- What `AddMinute` can make of a civil time, by the largest field that rolls on (R108). -/
inductive Upcoming (t : CivilTime) : CivilTime → Prop where
  | minute (hminute : t.minute ≠ 59) : Upcoming t { t with minute := t.minute + 1 }
  | hour (hminute : t.minute = 59) (hhour : t.hour ≠ 23) :
    Upcoming t { t with minute := 0, hour := t.hour + 1 }
  | day (hminute : t.minute = 59) (hhour : t.hour = 23) (hmday : t.mday < daysInMonth t.month t.year) :
    Upcoming t
      { t with minute := 0, hour := 0, mday := t.mday + 1, wday := (t.wday + 1) % 7, yday := t.yday + 1 }
  | month (hminute : t.minute = 59) (hhour : t.hour = 23) (hmday : daysInMonth t.month t.year ≤ t.mday)
    (hmonth : t.month ≠ 11) :
    Upcoming t
      { t with minute := 0, hour := 0, mday := 1, wday := (t.wday + 1) % 7, yday := t.yday + 1,
               month := t.month + 1 }
  | year (hminute : t.minute = 59) (hhour : t.hour = 23) (hmday : daysInMonth t.month t.year ≤ t.mday)
    (hmonth : t.month = 11) :
    Upcoming t
      { t with minute := 0, hour := 0, mday := 1, wday := (t.wday + 1) % 7, yday := 0, month := 0,
               year := (t.year + 1) % 65536 }

/-- The inversion of `AddMinute`. -/
theorem upcoming_addMinute (t : CivilTime) : Upcoming t (addMinute t) := by
  obtain ⟨minute, hour, day, month, year⟩ := addMinuteRollsOver t
  by_cases hminute : t.minute = 59
  · by_cases hhour : t.hour = 23
    · by_cases hmday : t.mday < daysInMonth t.month t.year
      · exact day hminute hhour hmday ▸ .day hminute hhour hmday
      · have hmday := Nat.not_lt.mp hmday
        by_cases hmonth : t.month = 11
        · exact year hminute hhour hmday hmonth ▸ .year hminute hhour hmday hmonth
        · exact month hminute hhour hmday hmonth ▸ .month hminute hhour hmday hmonth
    · exact hour hminute hhour ▸ .hour hminute hhour
  · exact minute hminute ▸ .minute hminute

/-! ### `AddMinute` and validity -/

/-- The days of the year before the month, and the day of the month. -/
def dayInYear (t : CivilTime) : Nat := ((monthLengths t.year).take t.month).sum + t.mday

/-- `AddMinute` keeps every bound of R103 but that of the day of year (R110). -/
theorem Upcoming.validTime_zero_yday {t u : CivilTime} (hup : Upcoming t u) (h : validTime t = true) :
    validTime { u with yday := 0 } = true := by
  rw [validTime_iff] at h ⊢
  cases hup <;> simp only
  case minute | hour | day => omega
  case month =>
    have := daysInMonth_pos (show t.month + 1 ≤ 11 by omega) t.year
    omega
  case year =>
    have := daysInMonth_pos (show 0 ≤ 11 by omega) ((t.year + 1) % 65536)
    omega

/-- `AddMinute` keeps the day of year in agreement with the date (R104, R108). -/
theorem Upcoming.yday_eq {t u : CivilTime} (hup : Upcoming t u) (h : validTime t = true)
    (hyday : t.yday + 1 = dayInYear t) : u.yday + 1 = dayInYear u := by
  obtain ⟨-, -, -, -, hmday, -, hmonth, -, -⟩ := (validTime_iff t).mp h
  have hnext := sum_take_monthLengths_succ hmonth t.year
  unfold dayInYear at hyday ⊢
  cases hup
  case minute | hour => exact hyday
  case day | month =>
    simp only
    omega
  case year => rfl

/-- Settles O59: the date stays within its month, and a day of year that agrees with such a date is within its bound. -/
theorem addMinuteKeepsValid : Obligations.AddMinuteKeepsValid := by
  intro t h
  have hrest := (upcoming_addMinute t).validTime_zero_yday h
  refine ⟨hrest, fun hyday => (validTime_iff_yday _).mpr ⟨hrest, ?_⟩⟩
  have hagree := (upcoming_addMinute t).yday_eq h hyday
  obtain ⟨-, -, -, -, hmday, -, hmonth, -, -⟩ := (validTime_iff _).mp hrest
  have hbound := sum_take_monthLengths_add_le hmonth hmday
  unfold dayInYear at hagree
  simp only at hbound
  omega

/-! ### The minute count -/

/-- A roll-over takes off the fields below what one more of its own field counts (R100, R101, R108). -/
theorem Upcoming.minuteNumber_eq {t u : CivilTime} (hup : Upcoming t u) (h : validTime t = true)
    (hlast : ¬(t.year = 65535 ∧ t.month = 11 ∧ t.mday = 31 ∧ t.hour = 23 ∧ t.minute = 59)) :
    minuteNumber u = minuteNumber t + 1 := by
  obtain ⟨-, -, -, hfirst, hmday, -, hmonth, -, hyear⟩ := (validTime_iff t).mp h
  have hmonths := sum_take_monthLengths_succ hmonth t.year
  unfold minuteNumber
  cases hup <;> simp only
  case minute | hour | day | month => omega
  case year hminute hhour hlastday hdecember =>
    rw [hdecember] at hmday hlastday hmonths ⊢
    have hlength : daysInMonth 11 t.year = 31 := rfl
    have hwrap : (t.year + 1) % 65536 = t.year + 1 := Nat.mod_eq_of_lt (by omega)
    rw [hwrap, daysBeforeYear_succ, ← sum_monthLengths, hmonths, List.take_zero, List.sum_nil]
    omega

/-- Settles O60, by the roll-over that happens. -/
theorem addMinuteIsOneMinuteLater : Obligations.AddMinuteIsOneMinuteLater :=
  fun t h hlast => (upcoming_addMinute t).minuteNumber_eq h hlast

/-! ### The fields a frame depends on -/

/-- A civil time with the fields cleared that the frames of an upcoming minute do not read (R113). -/
def clearUnread (t : CivilTime) : CivilTime :=
  { t with second := 0, yday := 0, todayDST := false, tomorrowDST := false }

/-- What `AddMinute` makes of the other fields does not depend on the cleared ones: it tests none of them (R108). -/
theorem clearUnread_addMinute (t : CivilTime) :
    clearUnread (addMinute t) = clearUnread (addMinute (clearUnread t)) := by
  unfold addMinute nextDay rollMonth clearUnread
  dsimp only
  split_ifs <;> rfl

/-- Civil times that agree on the other fields still do so a minute later. -/
theorem clearUnread_addMinute_congr {a b : CivilTime} (h : clearUnread a = clearUnread b) :
    clearUnread (addMinute a) = clearUnread (addMinute b) := by
  rw [clearUnread_addMinute a, h, ← clearUnread_addMinute b]

theorem dcf77Data_clearUnread (c : CivilTime) : dcf77Data (clearUnread c) = dcf77Data c := rfl

theorem msfA_clearUnread (c : CivilTime) : msfA (clearUnread c) = msfA c := rfl

theorem msfB_clearUnread (c : CivilTime) : msfB (clearUnread c) = msfB c := rfl

/-- A frame is a function of the fields that its encoder reads (R113, R114). -/
theorem frameOf_congr {std : Std} {a b : CivilTime} (h : sameRead std a b) : frameOf std a = frameOf std b := by
  cases std <;> simp only [frameOf]
  case wwvb =>
    obtain ⟨hminute, hhour, hyday, hyear, htoday, htomorrow⟩ := h
    simp only [wwvbFrame, wwvbData, encodedDoy, hminute, hhour, hyday, hyear, htoday, htomorrow]
  case jjy =>
    obtain ⟨hminute, hhour, hyday, hyear, hwday⟩ := h
    have hfields : jjyFields a = jjyFields b := by
      funext k
      simp only [jjyFields, encodedDoy, hminute, hhour, hyday, hyear, hwday]
    simp only [jjyFrame, jjyData, hfields]
  all_goals
    obtain ⟨hminute, hhour, hmday, hwday, hmonth, hyear, hdst⟩ := h
    have hnow : clearUnread a = clearUnread b := by
      simp only [clearUnread, hminute, hhour, hmday, hwday, hmonth, hyear, hdst]
    have hnext := clearUnread_addMinute_congr hnow
  case dcf77 =>
    unfold dcf77Frame
    rw [← dcf77Data_clearUnread (addMinute a), hnext, dcf77Data_clearUnread]
  case msf =>
    unfold msfFrame
    rw [← msfA_clearUnread (addMinute a), ← msfB_clearUnread (addMinute a), hnext, msfA_clearUnread,
      msfB_clearUnread]

/-- The `ENC` of a standard encodes a minute for it (R129, R153, R173, R202). -/
theorem exec_encOf (std : Std) (c : CivilTime) (s : State) :
    exec (encOf std c) s = encodeMinute std (frameOf std) c s := by
  cases std <;> rfl

/-- The frame left by an `ENC` that has a next state. -/
theorem frame_of_exec_encOf {std : Std} {c : CivilTime} {s t : State} (h : exec (encOf std c) s = .next t) :
    t.frame std = frameOf std c := by
  obtain ⟨-, rfl⟩ := encodeMinute_next (exec_encOf std c s ▸ h)
  simp

/-- Settles O50: the frame written is the frame function's value, from any state. -/
theorem frameDependsOnReadFields : Obligations.FrameDependsOnReadFields := by
  intro std a b s s' t t' hread hexec hexec'
  rw [frame_of_exec_encOf hexec, frame_of_exec_encOf hexec', frameOf_congr hread]

end Sys2Proof.Machine
end

section
/-! PROOFS. The family of WWVB: the waveforms and how often they change, the carrier frequencies, reading an entry of a
frame, and the frame of R127 with what a receiver reads from it. -/

namespace Sys2Proof.Machine

open Sys2Proof.Claims

/-! ### The dispatch forms by the live standard -/

/-- What the code in `SEL` chooses among values given per standard is the live standard's (R60, R209). -/
theorem byCode_sel {α : Type} (g : Std → α) (s : State) :
    byCode s.sel (g .wwvb) (g .dcf77) (g .jjy) (g .msf) = g s.live := by
  rw [← byCode_sel_eq_live]
  unfold byCode
  split <;> rfl

/-- Settles O22: each form answers its standard's frequency. -/
theorem frequencyResults : Obligations.FrequencyResults := by
  intro s
  refine ⟨rfl, rfl, rfl, rfl, ?_⟩
  have hsel := byCode_sel (frequencyOf s) s
  exact hsel ▸ execFreqSel_eq s

/-! ### Reading an entry -/

/-- A `SYM` of any standard answers the entry of its frame for an index in range (R42). -/
theorem symbolForSecond_in {k : Nat} (h : k < 60) (std : Std) (s : State) :
    symbolForSecond std k s = .next (answered s ((s.frame std)[k].setWidth 32)) := by
  rw [symbolForSecond, frameRead_in h, answer_eq_answered]

/-- Settles O23: a standard's form reads its frame, the dispatch form the live standard's. -/
theorem symReadsEntry : Obligations.SymReadsEntry := by
  intro k h s
  refine ⟨symbolForSecond_in h .wwvb s, symbolForSecond_in h .dcf77 s, symbolForSecond_in h .jjy s,
    symbolForSecond_in h .msf s, ?_⟩
  have hsel := byCode_sel (fun std => (s.frame std)[k].setWidth 32) s
  exact hsel ▸ symbolForSecond_in h s.live s

/-! ### Waveforms -/

/-- The `LVL` of a standard. -/
def lvlOf : Std → SymCode → Nat → Instr
  | .wwvb => .lvlWwvb
  | .dcf77 => .lvlDcf77
  | .jjy => .lvlJjy
  | .msf => .lvlMsf

/-- An `LVL` answers the level of its standard's waveform (R131, R155, R175, R204). -/
theorem exec_lvlOf (std : Std) (sym : SymCode) (ms : Nat) (s : State) :
    exec (lvlOf std sym ms) s = .next (answered s (levelRes (levelOf std sym ms))) := by
  have hanswer : exec (lvlOf std sym ms) s = answerLevel (levelOf std sym ms) s := by cases std <;> rfl
  rw [hanswer, answerLevel, resOfBool_eq, answer_eq_answered, levelRes]

/-- The level that is `start` up to the first edge and changes at every edge. -/
def wave (start : Bool) : List Nat → Nat → Bool
  | [], _ => start
  | c :: cs, ms => if ms < c then start else wave (!start) cs ms

/-- A wave holds its first level before its edges. -/
theorem wave_before {start : Bool} {cs : List Nat} {ms : Nat} (h : ∀ c ∈ cs, ms < c) :
    wave start cs ms = start := by
  cases cs with
  | nil => rfl
  | cons c cs => exact if_pos (h c (by simp))

/-- A wave that starts low and has one edge is high from the edge on. -/
theorem wave_low_single (c ms : Nat) : wave false [c] ms = decide (c ≤ ms) := by
  by_cases h : ms < c
  · simp [wave, h]
  · simp [wave, h, Nat.not_lt.mp h]

/-- A wave that starts high and has one edge is high up to the edge. -/
theorem wave_high_single (c ms : Nat) : wave true [c] ms = decide (ms < c) := by
  by_cases h : ms < c <;> simp [wave, h]

/-- A wave changes between two neighbouring offsets exactly when the second is an edge. -/
theorem wave_ne_succ_iff {cs : List Nat} (hsorted : cs.Pairwise (· < ·)) (start : Bool) (ms : Nat) :
    wave start cs ms ≠ wave start cs (ms + 1) ↔ ms + 1 ∈ cs := by
  induction cs generalizing start with
  | nil => simp [wave]
  | cons c cs ih =>
    obtain ⟨hfirst, hrest⟩ := List.pairwise_cons.mp hsorted
    rcases Nat.lt_trichotomy (ms + 1) c with hbefore | hedge | hafter
    · have hall : ∀ d ∈ c :: cs, ms + 1 < d :=
        List.forall_mem_cons.mpr ⟨hbefore, fun d hd => hbefore.trans (hfirst d hd)⟩
      rw [wave_before hall, wave_before fun d hd => (Nat.lt_succ_self ms).trans (hall d hd)]
      exact iff_of_false (fun h => h rfl) fun hmem => (hall _ hmem).false
    · subst hedge
      rw [wave_before (List.forall_mem_cons.mpr ⟨Nat.lt_succ_self ms, fun d hd => by have := hfirst d hd; omega⟩),
        wave, if_neg (lt_irrefl _), wave_before hfirst]
      simp
    · have hms : ¬ms < c := by omega
      rw [wave, wave, if_neg hms, if_neg (by omega), ih hrest, List.mem_cons, or_iff_right (by omega)]

/-- A wave whose edges lie within the second changes once at each of them. -/
theorem transitions_wave {cs : List Nat} (hsorted : cs.Pairwise (· < ·)) (hwithin : ∀ c ∈ cs, 0 < c ∧ c ≤ 999)
    (start : Bool) : transitions (wave start cs) = cs.length := by
  have hperm :
      (((List.range 999).filter fun ms => wave start cs ms != wave start cs (ms + 1)).map (· + 1)).Perm cs := by
    refine (List.perm_ext_iff_of_nodup ?_ hsorted.nodup).mpr fun c => ?_
    · exact (List.nodup_range.filter _).map (add_left_injective 1)
    · simp only [List.mem_map, List.mem_filter, List.mem_range, bne_iff_ne, wave_ne_succ_iff hsorted]
      constructor
      · rintro ⟨ms, ⟨-, hmem⟩, rfl⟩
        exact hmem
      · intro hmem
        obtain ⟨hpos, hle⟩ := hwithin c hmem
        have hpred : c - 1 + 1 = c := by omega
        exact ⟨c - 1, ⟨by omega, hpred.symm ▸ hmem⟩, hpred⟩
  rw [← hperm.length_eq, List.length_map, transitions]

/-- The waveform of every symbol a standard defines: its first level and its edges (R131, R155, R175, R204). -/
inductive Waveform : Std → SymCode → Bool → List Nat → Prop where
  | wwvbZero : Waveform .wwvb Sym.zero false [200]
  | wwvbOne : Waveform .wwvb Sym.one false [500]
  | wwvbMark : Waveform .wwvb Sym.mark false [800]
  | dcf77Zero : Waveform .dcf77 Sym.zero false [100]
  | dcf77One : Waveform .dcf77 Sym.one false [200]
  | dcf77Idle : Waveform .dcf77 Sym.idle true []
  | jjyZero : Waveform .jjy Sym.zero true [800]
  | jjyOne : Waveform .jjy Sym.one true [500]
  | jjyMark : Waveform .jjy Sym.mark true [200]
  | msfZero : Waveform .msf Sym.zero false [100]
  | msfOne : Waveform .msf Sym.one false [200]
  | msfMark : Waveform .msf Sym.mark false [500]
  | msfA1b1 : Waveform .msf Sym.a1b1 false [300]
  | msfA0b1 : Waveform .msf Sym.a0b1 false [100, 200, 300]

namespace Waveform

variable {std : Std} {sym : SymCode} {start : Bool} {edges : List Nat}

/-- Within the second the model's level is the wave with these edges. -/
theorem levelOf_eq (h : Waveform std sym start edges) {ms : Nat} (hms : ms ≤ 999) :
    levelOf std sym ms = wave start edges ms := by
  have hin : ¬ms > 999 := Nat.not_lt.mpr hms
  cases h
  case wwvbZero | wwvbOne | wwvbMark =>
    simp [levelOf, wwvbLevel, hin, Sym.zero, Sym.one, Sym.mark, wave_low_single]
  case dcf77Zero | dcf77One => simp [levelOf, dcf77Level, hin, Sym.zero, Sym.one, wave_low_single]
  case dcf77Idle => simp [levelOf, dcf77Level, hin, Sym.zero, Sym.one, Sym.idle, wave]
  case jjyZero | jjyOne | jjyMark =>
    simp [levelOf, jjyLevel, hin, Sym.zero, Sym.one, Sym.mark, wave_high_single]
  case msfMark => simp [levelOf, msfLevel, hin, wave_low_single]
  case msfZero | msfA0b1 => simp [levelOf, msfLevel, hin, Sym.zero, Sym.mark, Sym.a0b1, wave]
  case msfOne | msfA1b1 =>
    rw [Bool.eq_iff_iff]
    simp [levelOf, msfLevel, hin, Sym.one, Sym.mark, Sym.a1b1, wave]
    omega

/-- Within the second an `LVL` answers the wave. -/
theorem exec_lvl (h : Waveform std sym start edges) {ms : Nat} (hms : ms ≤ 999) (s : State) :
    exec (lvlOf std sym ms) s = .next (answered s (levelRes (wave start edges ms))) := by
  rw [exec_lvlOf, h.levelOf_eq hms]

/-- The edges are in order and lie within the second. -/
theorem edges_sorted (h : Waveform std sym start edges) :
    edges.Pairwise (· < ·) ∧ ∀ c ∈ edges, 0 < c ∧ c ≤ 999 := by
  cases h <;> decide

/-- What an `LVL` answers over the second changes once per edge. -/
theorem exec_lvl_transitions (h : Waveform std sym start edges) (s : State) :
    ∃ f : Nat → Bool, (∀ ms ≤ 999, exec (lvlOf std sym ms) s = .next (answered s (levelRes (f ms)))) ∧
      transitions f = edges.length :=
  ⟨wave start edges, fun _ hms => h.exec_lvl hms s, transitions_wave h.edges_sorted.1 h.edges_sorted.2 start⟩

end Waveform

/-- Settles O31: each symbol of the list has its waveform, and the number is that of its edges. -/
theorem levelTransitions : Obligations.LevelTransitions := by
  intro s mk n hmem
  simp only [List.mem_cons, List.not_mem_nil, or_false, Prod.mk.injEq] at hmem
  rcases hmem with h | h | h | h | h | h | h | h | h | h | h | h | h | h <;> obtain ⟨rfl, rfl⟩ := h
  · exact Waveform.wwvbZero.exec_lvl_transitions s
  · exact Waveform.wwvbOne.exec_lvl_transitions s
  · exact Waveform.wwvbMark.exec_lvl_transitions s
  · exact Waveform.dcf77Zero.exec_lvl_transitions s
  · exact Waveform.dcf77One.exec_lvl_transitions s
  · exact Waveform.dcf77Idle.exec_lvl_transitions s
  · exact Waveform.jjyZero.exec_lvl_transitions s
  · exact Waveform.jjyOne.exec_lvl_transitions s
  · exact Waveform.jjyMark.exec_lvl_transitions s
  · exact Waveform.msfZero.exec_lvl_transitions s
  · exact Waveform.msfOne.exec_lvl_transitions s
  · exact Waveform.msfMark.exec_lvl_transitions s
  · exact Waveform.msfA1b1.exec_lvl_transitions s
  · exact Waveform.msfA0b1.exec_lvl_transitions s

/-- A code WWVB does not define, or an offset beyond the second, has the open level (R72). -/
theorem wwvbLevel_unlisted {sym : SymCode} {ms : Nat} (h : 999 < ms ∨ 3 ≤ sym.toNat) :
    wwvbLevel sym ms = Config.unlistedLevel .wwvb sym ms := by
  unfold wwvbLevel
  rcases h with hbeyond | hcode
  · exact if_pos hbeyond
  · have hne : ∀ c : SymCode, c.toNat < 3 → sym ≠ c := by
      rintro c hc rfl
      omega
    rw [if_neg (hne Sym.zero (by decide)), if_neg (hne Sym.one (by decide)), if_neg (hne Sym.mark (by decide)),
      ite_self]

/-- Settles O26: a listed symbol's waveform has one edge. -/
theorem lvlWwvbResult : Obligations.LvlWwvbResult := by
  intro ms s
  refine ⟨fun hms => ?_, fun sym h => ?_⟩
  · rw [← wave_low_single, ← wave_low_single, ← wave_low_single]
    exact ⟨Waveform.wwvbZero.exec_lvl hms s, Waveform.wwvbOne.exec_lvl hms s, Waveform.wwvbMark.exec_lvl hms s⟩
  · rw [← wwvbLevel_unlisted h]
    exact exec_lvlOf .wwvb sym ms s

/-! ### Decimal digits in a frame -/

/-- A bit of a decimal digit of padded BCD: the digit groups lie five apart (R90). -/
theorem paddedBcd_digit_getLsbD (v : Nat) {g j : Nat} (hj : j < 5) (hwidth : 5 * g + j < 14) :
    (paddedBcd v).getLsbD (5 * g + j) = (v / 10 ^ g % 10).testBit j := by
  have hg : g < 3 := by omega
  rw [paddedBcd_getLsbD]
  interval_cases g
  · simp [hj, units]
  · have hhigh : 5 * 1 + j < 10 := by omega
    simp [hhigh, tens]
  · have hlow : ¬5 * 2 + j < 5 := by omega
    have hmid : ¬5 * 2 + j < 10 := by omega
    simp [hlow, hmid, hwidth, hundreds]

/-- The bit above the units is a pad (R90). -/
theorem paddedBcd_units_pad (v : Nat) : (paddedBcd v).getLsbD 4 = false := by
  simp only [paddedBcd_getLsbD, digit_testBit (units_lt v) (le_refl 4)]
  rfl

/-- The bit above the tens is a pad (R90). -/
theorem paddedBcd_tens_pad (v : Nat) : (paddedBcd v).getLsbD 9 = false := by
  simp only [paddedBcd_getLsbD, digit_testBit (tens_lt v) (le_refl 4)]
  rfl

/-- The low `n` bits of digit group `g` of a padded BCD field lie, most significant first, where they end before the
groups below begin (R12, R90). -/
theorem map_msbFirst_digit {a w p n g : Nat} (v : Nat)
    (hplace : a ≤ p ∧ p + n + 5 * g = a + w ∧ n ≤ 5 ∧ w ≤ 14) :
    (List.range' p n).map (msbFirst a w (paddedBcd v)) = msb n (v / 10 ^ g % 10) := by
  rw [msb, List.range'_eq_map_range, List.map_map]
  refine List.map_congr_left fun k hk => ?_
  have hkn := List.mem_range.mp hk
  obtain ⟨i, hi⟩ : ∃ i, p + k = a + i := ⟨p + k - a, by omega⟩
  have hbit : w - 1 - i = 5 * g + (n - 1 - k) := by omega
  rw [Function.comp_apply, hi, msbFirst_in (by omega), hbit, paddedBcd_digit_getLsbD v (by omega) (by omega)]

/-- A single bit puts nothing at another second. -/
theorem bitAt_out {a s : Nat} {b : Bool} (h : s ≠ a) : bitAt a b s = false := by
  simp [bitAt, h]

theorem syms_append (l l' : List Bool) : syms (l ++ l') = syms l ++ syms l' := List.map_append

theorem syms_blank (n : Nat) : syms (List.replicate n false) = zeros n := by
  simp [syms, zeros]

/-- The weights of an `n`-bit digit sent most significant bit first from second `a`, the lowest of them `w`. -/
def digitWeights (a n w : Nat) : List (Nat × Nat) := (List.range n).map fun k => (a + k, w * 2 ^ (n - 1 - k))

theorem weigh_append (p : SymCode → Bool) (F : Frame) (l l' : List (Nat × Nat)) :
    weigh p F (l ++ l') = weigh p F l + weigh p F l' := by
  simp [weigh]

/-- The weights of the ones among the low `n` bits of a number, most significant first, add up to those bits. -/
theorem sum_bit_weights (n d w : Nat) :
    ((List.range n).map fun k => if d.testBit (n - 1 - k) then w * 2 ^ (n - 1 - k) else 0).sum = w * (d % 2 ^ n) := by
  induction n with
  | zero => simp [Nat.mod_one]
  | succ n ih =>
    have htop : (if d.testBit n then w * 2 ^ n else 0) = w * (2 ^ n * (d / 2 ^ n % 2)) := by
      rcases Nat.mod_two_eq_zero_or_one (d / 2 ^ n) with h | h <;> simp [Nat.testBit_eq_decide_div_mod_eq, h]
    have hrest (k : Nat) : n - 1 - k = n - k.succ := by omega
    simp only [hrest] at ih
    rw [List.range_succ_eq_map, List.map_cons, List.map_map, List.sum_cons, Function.comp_def]
    simp only [ih, Nat.add_sub_cancel, Nat.sub_zero, htop, Nat.mod_pow_succ, Nat.mul_add]
    exact Nat.add_comm _ _

/-- A frame that shows a digit, most significant bit first, is read as that digit times its weight. -/
theorem weigh_digitWeights {F : Frame} {a n d : Nat} (hshown : (F.toList.drop a).take n = syms (msb n d))
    (hd : d < 2 ^ n) (w : Nat) : weigh isOne F (digitWeights a n w) = w * d := by
  have hentry (k : Nat) (hk : k < n) :
      F.toList[a + k]? = some (if d.testBit (n - 1 - k) then Sym.one else Sym.zero) := by
    rw [← List.getElem?_drop, ← List.getElem?_take_of_lt hk, hshown]
    simp [syms, msb, hk]
  have hsum := sum_bit_weights n d w
  rw [Nat.mod_eq_of_lt hd] at hsum
  rw [← hsum, weigh, digitWeights, List.map_map]
  congr 1
  refine List.map_congr_left fun k hk => ?_
  rw [Function.comp_apply, hentry k (List.mem_range.mp hk)]
  cases d.testBit (n - 1 - k) <;> rfl

/-! ### The data bits of the WWVB frame -/

section WwvbFrame

variable (t : CivilTime)

/-- Before second 12 only the minute lies (R117). -/
theorem wwvbData_minute {s : Nat} (h : s < 12) : wwvbData t s = msbFirst 1 8 (paddedBcd t.minute) s := by
  simp (disch := omega) only [wwvbData, msbFirst_out, bitAt_out, Bool.or_false]

/-- From second 12 to 21 only the hour lies (R118). -/
theorem wwvbData_hour {s : Nat} (h : 12 ≤ s ∧ s < 22) : wwvbData t s = msbFirst 12 7 (paddedBcd t.hour) s := by
  simp (disch := omega) only [wwvbData, msbFirst_out, bitAt_out, Bool.or_false, Bool.false_or]

/-- From second 22 to 44 only the day of year lies (R119). -/
theorem wwvbData_doy {s : Nat} (h : 22 ≤ s ∧ s < 45) :
    wwvbData t s = msbFirst 22 12 (paddedBcd (t.yday + 1)) s := by
  simp (disch := omega) only [wwvbData, msbFirst_out, bitAt_out, Bool.or_false, Bool.false_or, encodedDoy]

/-- From second 45 to 54 only the year lies (R121). -/
theorem wwvbData_year {s : Nat} (h : 45 ≤ s ∧ s < 55) :
    wwvbData t s = msbFirst 45 9 (paddedBcd (t.year % 100)) s := by
  simp (disch := omega) only [wwvbData, msbFirst_out, bitAt_out, Bool.or_false, Bool.false_or, twoDigitYear]

/-- The seconds that hold 0 in every frame: the pads within the fields, and what lies between the fields (R117 to
R121, R126). -/
abbrev WwvbBlank (s : Nat) : Prop :=
  s = 4 ∨ s = 14 ∨ s = 24 ∨ (9 ≤ s ∧ s < 12) ∨ (19 ≤ s ∧ s < 22) ∨ (34 ≤ s ∧ s < 45) ∨ s = 54

theorem wwvbData_blank {s : Nat} (h : WwvbBlank s) : wwvbData t s = false := by
  rcases h with rfl | rfl | rfl | hbetween
  · rw [wwvbData_minute t (by decide)]
    exact paddedBcd_units_pad t.minute
  · rw [wwvbData_hour t (by decide)]
    exact paddedBcd_units_pad t.hour
  · rw [wwvbData_doy t (by decide)]
    exact paddedBcd_tens_pad (t.yday + 1)
  · rcases hbetween with h | h | h | h <;>
      simp (disch := omega) only [wwvbData, msbFirst_out, bitAt_out, Bool.or_false]

/-- The data bits of the `n` seconds from `a`. -/
def wwvbBits (a n : Nat) : List Bool := (List.range' a n).map (wwvbData t)

variable {t}

theorem wwvbBits_congr {a n : Nat} {f : Nat → Bool} (h : ∀ s, a ≤ s → s < a + n → wwvbData t s = f s) :
    wwvbBits t a n = (List.range' a n).map f :=
  List.map_congr_left fun s hs => h s (List.mem_range'_1.mp hs).1 (List.mem_range'_1.mp hs).2

variable (t)

theorem wwvbBits_blank {a n : Nat} (h : ∀ s ∈ List.range' a n, WwvbBlank s) :
    wwvbBits t a n = List.replicate n false := by
  rw [wwvbBits_congr fun s hlo hhi => wwvbData_blank t (h s (List.mem_range'_1.mpr ⟨hlo, hhi⟩)), List.map_const',
    List.length_range']

theorem wwvbBits_minute_tens : wwvbBits t 1 3 = msb 3 (t.minute / 10 % 10) := by
  rw [wwvbBits_congr fun s _ _ => wwvbData_minute t (by omega)]
  exact map_msbFirst_digit (g := 1) t.minute (by decide)

theorem wwvbBits_minute_units : wwvbBits t 5 4 = msb 4 (t.minute % 10) := by
  rw [wwvbBits_congr fun s _ _ => wwvbData_minute t (by omega), map_msbFirst_digit (g := 0) t.minute (by decide)]
  simp

theorem wwvbBits_hour_tens : wwvbBits t 12 2 = msb 2 (t.hour / 10 % 10) := by
  rw [wwvbBits_congr fun s _ _ => wwvbData_hour t (by omega)]
  exact map_msbFirst_digit (g := 1) t.hour (by decide)

theorem wwvbBits_hour_units : wwvbBits t 15 4 = msb 4 (t.hour % 10) := by
  rw [wwvbBits_congr fun s _ _ => wwvbData_hour t (by omega), map_msbFirst_digit (g := 0) t.hour (by decide)]
  simp

theorem wwvbBits_doy_hundreds : wwvbBits t 22 2 = msb 2 ((t.yday + 1) / 100 % 10) := by
  rw [wwvbBits_congr fun s _ _ => wwvbData_doy t (by omega)]
  exact map_msbFirst_digit (g := 2) (t.yday + 1) (by decide)

theorem wwvbBits_doy_tens : wwvbBits t 25 4 = msb 4 ((t.yday + 1) / 10 % 10) := by
  rw [wwvbBits_congr fun s _ _ => wwvbData_doy t (by omega)]
  exact map_msbFirst_digit (g := 1) (t.yday + 1) (by decide)

theorem wwvbBits_doy_units : wwvbBits t 30 4 = msb 4 ((t.yday + 1) % 10) := by
  rw [wwvbBits_congr fun s _ _ => wwvbData_doy t (by omega), map_msbFirst_digit (g := 0) (t.yday + 1) (by decide)]
  simp

theorem wwvbBits_year_tens : wwvbBits t 45 4 = msb 4 (t.year % 100 / 10 % 10) := by
  rw [wwvbBits_congr fun s _ _ => wwvbData_year t (by omega)]
  exact map_msbFirst_digit (g := 1) (t.year % 100) (by decide)

theorem wwvbBits_year_units : wwvbBits t 50 4 = msb 4 (t.year % 100 % 10) := by
  rw [wwvbBits_congr fun s _ _ => wwvbData_year t (by omega), map_msbFirst_digit (g := 0) (t.year % 100) (by decide)]
  simp

/-- The leap-year flag, the leap-second 0 and the DST pair (R122, R123, R124). -/
theorem wwvbBits_flags : wwvbBits t 55 4 = [isLeap t.year, false, t.tomorrowDST, t.todayDST] := by
  rw [isLeap_eq_leapYear]
  simp [wwvbBits, List.range', wwvbData, msbFirst_out, bitAt]

/-! ### The WWVB frame as a list -/

/-- The symbol of a second (R116, R127). -/
def wwvbSecond (s : Nat) : SymCode := if wwvbMarker s then Sym.mark else dataSym (wwvbData t s)

theorem wwvbFrame_toList : (wwvbFrame t).toList = (List.range 60).map (wwvbSecond t) :=
  List.ext_getElem (by simp) fun k hk _ => by
    rw [List.getElem_map, List.getElem_range, Vector.getElem_toList, wwvbFrame_getElem, wwvbSecond]

/-- Seconds without a marker show their data bits. -/
theorem map_wwvbSecond {a n : Nat} (h : ∀ s ∈ List.range' a n, wwvbMarker s = false) :
    (List.range' a n).map (wwvbSecond t) = syms (wwvbBits t a n) := by
  rw [syms, wwvbBits, List.map_map]
  refine List.map_congr_left fun s hs => ?_
  rw [wwvbSecond, h s hs]
  rfl

/-- The frame function is R127's map. -/
theorem wwvbFrame_toList_eq_map : (wwvbFrame t).toList = wwvbMap t := by
  have hseconds : List.range 60 =
      [0] ++ List.range' 1 3 ++ List.range' 4 1 ++ List.range' 5 4
      ++ [9] ++ List.range' 10 2 ++ List.range' 12 2 ++ List.range' 14 1 ++ List.range' 15 4
      ++ [19] ++ List.range' 20 2 ++ List.range' 22 2 ++ List.range' 24 1 ++ List.range' 25 4
      ++ [29] ++ List.range' 30 4 ++ List.range' 34 5 ++ [39] ++ List.range' 40 5 ++ List.range' 45 4
      ++ [49] ++ List.range' 50 4 ++ List.range' 54 1 ++ List.range' 55 4 ++ [59] := rfl
  rw [wwvbFrame_toList, hseconds]
  unfold wwvbMap
  simp (disch := decide) only [List.map_append, map_wwvbSecond, wwvbBits_minute_tens, wwvbBits_minute_units,
    wwvbBits_hour_tens, wwvbBits_hour_units, wwvbBits_doy_hundreds, wwvbBits_doy_tens, wwvbBits_doy_units,
    wwvbBits_year_tens, wwvbBits_year_units, wwvbBits_flags, wwvbBits_blank, syms_append, syms_blank,
    List.append_assoc]
  rfl

/-- What a receiver reads at the seconds of a digit. -/
theorem weigh_wwvbFrame {a n d : Nat} (hbits : wwvbBits t a n = msb n d)
    (hdata : a + n ≤ 60 ∧ ∀ s ∈ List.range' a n, wwvbMarker s = false) (hd : d < 2 ^ n) (w : Nat) :
    weigh isOne (wwvbFrame t) (digitWeights a n w) = w * d := by
  refine weigh_digitWeights ?_ hd w
  have hrange : ((List.range 60).drop a).take n = List.range' a n := by
    obtain ⟨m, hm⟩ : ∃ m, 60 = a + (n + m) := ⟨60 - a - n, by omega⟩
    rw [List.range_eq_range', hm, ← List.range'_append_1, ← List.range'_append_1,
      List.drop_left' List.length_range', Nat.zero_add, List.take_left' List.length_range']
  rw [wwvbFrame_toList, ← List.map_drop, ← List.map_take, hrange, map_wwvbSecond t hdata.2, hbits]

end WwvbFrame

/-! ### The statements about `ENC.WWVB` -/

/-- An `ENC` of a valid civil time writes the frame and answers (0, 0) (R129). -/
theorem encodeMinute_of_valid {t : CivilTime} (h : validTime t = true) (std : Std) (F : CivilTime → Frame)
    (s : State) : encodeMinute std F t s = .next (answered (s.frameWrite std (F t)) 0) := by
  rw [encodeMinute, if_pos h, answer_eq_answered]

/-- Settles O32: the frame written is the frame function's, which is the map. -/
theorem encWwvbWritesFrame : Obligations.EncWwvbWritesFrame := fun t s h =>
  ⟨wwvbFrame t, wwvbFrame_toList_eq_map t, encodeMinute_of_valid h .wwvb wwvbFrame s⟩

/-- Settles O38: each number is the sum of its digits, and each digit is read at its seconds. -/
theorem wwvbFrameReadsBack : Obligations.WwvbFrameReadsBack := by
  intro t s h
  refine ⟨_, encodeMinute_of_valid h .wwvb wwvbFrame s, ?_⟩
  intro read
  obtain ⟨hminute, hhour, -, -, -, hyday, -, -, -⟩ := (validTime_iff t).mp h
  have hleap := Bool.toNat_le (leapYear t.year)
  have hread : read = weigh isOne (wwvbFrame t) := rfl
  rw [hread]
  refine ⟨?_, ?_, ?_, ?_⟩
  · have hweights : [(1, 40), (2, 20), (3, 10), (5, 8), (6, 4), (7, 2), (8, 1)] =
        digitWeights 1 3 10 ++ digitWeights 5 4 1 := rfl
    rw [hweights, weigh_append, weigh_wwvbFrame t (wwvbBits_minute_tens t) (by decide) (by omega),
      weigh_wwvbFrame t (wwvbBits_minute_units t) (by decide) (by omega)]
    omega
  · have hweights : [(12, 20), (13, 10), (15, 8), (16, 4), (17, 2), (18, 1)] =
        digitWeights 12 2 10 ++ digitWeights 15 4 1 := rfl
    rw [hweights, weigh_append, weigh_wwvbFrame t (wwvbBits_hour_tens t) (by decide) (by omega),
      weigh_wwvbFrame t (wwvbBits_hour_units t) (by decide) (by omega)]
    omega
  · have hweights : [(22, 200), (23, 100), (25, 80), (26, 40), (27, 20), (28, 10), (30, 8), (31, 4), (32, 2),
        (33, 1)] =
        digitWeights 22 2 100 ++ digitWeights 25 4 10 ++ digitWeights 30 4 1 := rfl
    rw [hweights, weigh_append, weigh_append, weigh_wwvbFrame t (wwvbBits_doy_hundreds t) (by decide) (by omega),
      weigh_wwvbFrame t (wwvbBits_doy_tens t) (by decide) (by omega),
      weigh_wwvbFrame t (wwvbBits_doy_units t) (by decide) (by omega)]
    omega
  · have hweights : [(45, 80), (46, 40), (47, 20), (48, 10), (50, 8), (51, 4), (52, 2), (53, 1)] =
        digitWeights 45 4 10 ++ digitWeights 50 4 1 := rfl
    rw [hweights, weigh_append, weigh_wwvbFrame t (wwvbBits_year_tens t) (by decide) (by omega),
      weigh_wwvbFrame t (wwvbBits_year_units t) (by decide) (by omega)]
    omega

/-! ### The marker seconds -/

/-- The markers of WWVB and JJY are at the same seconds (R116, R162). -/
theorem wwvbMarker_iff (k : Nat) : wwvbMarker k = true ↔ k ∈ [0, 9, 19, 29, 39, 49, 59] := by
  simp [wwvbMarker, or_assoc]

theorem jjyMarker_eq_wwvbMarker (k : Nat) : jjyMarker k = wwvbMarker k := rfl

/-- A second of WWVB or JJY as `SYM` answers it: `MARK` at a marker second, `ZERO` or `ONE` at every other. -/
theorem setWidth_second (marker bit : Bool) :
    let res : Res := (if marker then Sym.mark else dataSym bit).setWidth 32
    if marker then res = 2 else res = 0 ∨ res = 1 := by
  revert marker bit
  decide

/-- Settles O45: each `SYM` reads its frame, and both frames have their markers at the same seconds. -/
theorem markerSeconds : Obligations.MarkerSeconds := by
  intro t s h
  refine ⟨_, _, encodeMinute_of_valid h .wwvb wwvbFrame s, encodeMinute_of_valid h .jjy jjyFrame s, fun k hk =>
    ⟨_, _, symbolForSecond_in hk .wwvb _, symbolForSecond_in hk .jjy _, ?_⟩⟩
  have hwwvb := setWidth_second (wwvbMarker k) (wwvbData t k)
  have hjjy := setWidth_second (jjyMarker k) (jjyData t k)
  rw [← wwvbFrame_getElem t hk] at hwwvb
  rw [← jjyFrame_getElem t hk] at hjjy
  simp only [jjyMarker_eq_wwvbMarker, wwvbMarker_iff] at hwwvb hjjy
  split_ifs at hwwvb hjjy ⊢
  · exact ⟨hwwvb, hjjy⟩
  · exact ⟨hwwvb, hjjy⟩

end Sys2Proof.Machine
end

section
/-! PROOFS. The family of DCF77: the levels, the frame of R151 with what a receiver reads from it, its parity and its
fixed seconds. -/

namespace Sys2Proof.Machine

open Sys2Proof.Claims

/-! ### Levels -/

/-- A code DCF77 does not define, or an offset beyond the second, has the open level (R72). -/
theorem dcf77Level_unlisted {sym : SymCode} {ms : Nat} (h : 999 < ms ∨ sym = Sym.mark ∨ 4 ≤ sym.toNat) :
    dcf77Level sym ms = Config.unlistedLevel .dcf77 sym ms := by
  unfold dcf77Level
  rcases h with hbeyond | hcode
  · exact if_pos hbeyond
  · have hne : sym ≠ Sym.zero ∧ sym ≠ Sym.one ∧ sym ≠ Sym.idle := by
      revert hcode sym
      decide
    obtain ⟨hzero, hone, hidle⟩ := hne
    rw [if_neg hzero, if_neg hone, if_neg hidle, ite_self]

/-- Settles O27: `ZERO` and `ONE` have one edge, `IDLE` has none. -/
theorem lvlDcf77Result : Obligations.LvlDcf77Result := by
  intro ms s
  refine ⟨fun hms => ?_, fun sym h => ?_⟩
  · rw [← wave_low_single, ← wave_low_single]
    exact ⟨Waveform.dcf77Zero.exec_lvl hms s, Waveform.dcf77One.exec_lvl hms s, Waveform.dcf77Idle.exec_lvl hms s⟩
  · rw [← dcf77Level_unlisted h]
    exact exec_lvlOf .dcf77 sym ms s

/-! ### Numbers sent least significant bit first -/

/-- The bits of a number in two parts, the lower bits first. -/
theorem lsb_add (m n v : Nat) : lsb (m + n) v = lsb m v ++ lsb n (v / 2 ^ m) := by
  simp [lsb, List.range_add, Nat.testBit_div_two_pow, Nat.add_comm]

/-- Bits from the width on do not matter. -/
theorem lsb_mod_two_pow (w v : Nat) : lsb w (v % 2 ^ w) = lsb w v :=
  List.map_congr_left fun k hk => by simp [Nat.testBit_mod_two_pow, List.mem_range.mp hk]

/-- A field at its seconds shows its number (R12). -/
theorem map_lsbFirst {n : Nat} (a w : Nat) (v : BitVec n) :
    (List.range' a w).map (lsbFirst a w v) = lsb w v.toNat := by
  rw [lsb, List.range'_eq_map_range, List.map_map]
  exact List.map_congr_left fun k hk => lsbFirst_in (List.mem_range.mp hk)

/-- Two decimal digits, units first, each least significant bit first: four bits of units and `n` bits of tens. -/
def lsbDigits (n v : Nat) : List Bool := lsb 4 (v % 10) ++ lsb n (v / 10 % 10)

/-- The low bits of plain BCD are the two digits (R87). -/
theorem lsb_bcd (n v : Nat) : lsb (4 + n) (bcd v).toNat = lsbDigits n v := by
  have hunits := units_lt v
  have htens : (16 * tens v + units v) / 2 ^ 4 = tens v := by omega
  have hlow : (16 * tens v + units v) % 2 ^ 4 = units v := by omega
  rw [bcd_toNat, lsb_add, htens, ← lsb_mod_two_pow 4, hlow]
  rfl

/-- Plain BCD drops the hundreds (R89). -/
theorem bcd_mod_hundred (v : Nat) : bcd (v % 100) = bcd v := by
  have hunits : units (v % 100) = units v := by
    unfold units
    omega
  have htens : tens (v % 100) = tens v := by
    unfold tens
    omega
  rw [bcd, bcd, hunits, htens]

/-- The weights of the ones among the low `n` bits of a number, least significant first, add up to those bits. -/
theorem sum_lsb_weights (n d w : Nat) :
    ((List.range n).map fun k => if d.testBit k then w * 2 ^ k else 0).sum = w * (d % 2 ^ n) := by
  rw [← sum_bit_weights, ← List.sum_reverse, ← List.map_reverse, List.range_eq_range', List.reverse_range',
    List.map_map, ← List.range_eq_range']
  simp [Function.comp_def]

/-! ### Even parity -/

/-- The parity of two lists together (R12). -/
theorem evenBit_append (l l' : List Bool) : evenBit (l ++ l') = (evenBit l ^^ evenBit l') := by
  simp only [evenBit, List.count_append]
  rcases Nat.mod_two_eq_zero_or_one (l.count true) with h | h <;>
    rcases Nat.mod_two_eq_zero_or_one (l'.count true) with h' | h' <;> simp [Nat.add_mod, h, h']

/-- A list closed by its parity bit holds an even number of ones. -/
theorem count_append_evenBit (l : List Bool) : (l ++ [evenBit l]).count true % 2 = 0 := by
  rw [List.count_append, evenBit]
  rcases Nat.mod_two_eq_zero_or_one (l.count true) with h | h <;> simp [Nat.add_mod, h]

/-- The ones of a list, added up as numbers. -/
theorem sum_toNat_eq_count (l : List Bool) : (l.map Bool.toNat).sum = l.count true := by
  induction l with
  | nil => rfl
  | cons b l ih => cases b <;> simp [ih, Nat.add_comm]

/-- The model's parity of a range is the parity of its bits (R11, R12). -/
theorem xorRange_eq_evenBit (f : Nat → Bool) (a n : Nat) :
    xorRange f a (a + n) = evenBit ((List.range' a (n + 1)).map f) := by
  have hlength : a + n + 1 - a = n + 1 := by omega
  rw [xorRange, countOnes, evenBit, hlength, ← sum_toNat_eq_count, List.range'_eq_map_range, List.map_map,
    List.map_map]
  rfl

/-- The parity of the low bits of a field is that of its number (R11). -/
theorem xorBits_extractLsb' {n : Nat} (w : Nat) (v : BitVec n) :
    xorBits (v.extractLsb' 0 (w + 1)) = evenBit (lsb (w + 1) v.toNat) := by
  have hparity := xorRange_eq_evenBit (v.extractLsb' 0 (w + 1)).getLsbD 0 w
  rw [Nat.zero_add] at hparity
  rw [xorBits, Nat.add_sub_cancel, hparity, lsb, List.range_eq_range']
  congr 1
  refine List.map_congr_left fun k hk => ?_
  have hwidth : k < w + 1 := by simpa using hk
  rw [BitVec.getLsbD_extractLsb', decide_eq_true hwidth, Bool.true_and, Nat.zero_add, BitVec.testBit_toNat]

/-- The parity of a field is that of its number (R11). -/
theorem xorBits_eq_evenBit {w : Nat} (v : BitVec (w + 1)) : xorBits v = evenBit (lsb (w + 1) v.toNat) := by
  rw [← xorBits_extractLsb', BitVec.extractLsb'_eq_self]

/-! ### Reading data bits from a frame -/

section Reading

variable {F : Frame} {f : Nat → Bool}

/-- At seconds that show data bits, the weights of the ones are added. -/
theorem weigh_isOne_of_data {ws : List (Nat × Nat)} (h : ∀ x ∈ ws, F.toList[x.1]? = some (dataSym (f x.1))) :
    weigh isOne F ws = (ws.map fun x => if f x.1 then x.2 else 0).sum := by
  rw [weigh]
  congr 1
  refine List.map_congr_left fun x hx => ?_
  rw [h x hx]
  cases f x.1 <;> rfl

/-- At seconds that show data bits, the ones are counted. -/
theorem countAt_isOne_of_data {l : List Nat} (h : ∀ s ∈ l, F.toList[s]? = some (dataSym (f s))) :
    countAt isOne F l = (l.map f).count true := by
  rw [countAt, weigh_isOne_of_data (by simpa using h), List.map_map, ← sum_toNat_eq_count, List.map_map]
  congr 1
  refine List.map_congr_left fun s _ => ?_
  rw [Function.comp_apply, Function.comp_apply]
  cases f s <;> rfl

end Reading

/-! ### The data bits of the DCF77 frame -/

section Dcf77Frame

variable (c : CivilTime)

/-- The data bits of the `n` seconds from `a`. -/
def dcf77Bits (a n : Nat) : List Bool := (List.range' a n).map (dcf77Data c)

variable {c}

/-- Outside the three parity seconds the data bits are those of the fields. -/
theorem dcf77Data_eq_fields {s : Nat} (h : s ≠ 28 ∧ s ≠ 35 ∧ s ≠ 58) : dcf77Data c s = dcf77Fields c s := by
  simp (disch := omega) only [dcf77Data, bitAt_out, Bool.or_false]

variable (c) in
/-- The fields of a DCF77 frame: the first second, the width, and the value sent (R141, R143, R145 to R148). -/
inductive Dcf77Field : Nat → Nat → {m : Nat} → BitVec m → Prop where
  | minute : Dcf77Field 21 7 (bcd c.minute)
  | hour : Dcf77Field 29 6 (bcd c.hour)
  | mday : Dcf77Field 36 6 (bcd c.mday)
  | wday : Dcf77Field 42 3 (dcf77Weekday c.wday)
  | month : Dcf77Field 45 5 (bcd (c.month + 1))
  | year : Dcf77Field 50 8 (bcd c.year)

namespace Dcf77Field

variable {a w m : Nat} {v : BitVec m}

/-- At its seconds a field lies alone. -/
theorem dcf77Data_eq (h : Dcf77Field c a w v) {s : Nat} (hs : a ≤ s ∧ s < a + w) :
    dcf77Data c s = lsbFirst a w v s := by
  cases h
  all_goals
    rw [dcf77Data_eq_fields (by omega)]
    simp (disch := omega) only [dcf77Fields, encodedMonth, monthOffset, lsbFirst_out, bitAt_out, Bool.or_false,
      Bool.false_or]

/-- A field shows its value, least significant bit first. -/
theorem dcf77Bits_eq (h : Dcf77Field c a w v) : dcf77Bits c a w = lsb w v.toNat := by
  rw [← map_lsbFirst a]
  exact List.map_congr_left fun s hs => h.dcf77Data_eq (List.mem_range'_1.mp hs)

end Dcf77Field

variable (c)

/-- The seconds that hold 0 in every frame (R138, R140). -/
theorem dcf77Data_blank {s : Nat} (h : s < 17 ∨ s = 19) : dcf77Data c s = false := by
  simp (disch := omega) only [dcf77Data, dcf77Fields, lsbFirst_out, bitAt_out, Bool.or_false]

/-- The DST flag (R139). -/
theorem dcf77Data_dst : dcf77Data c 17 = c.isdst := by
  simp [dcf77Data, dcf77Fields, lsbFirst_out, bitAt]

/-- The inverse of the DST flag (R139). -/
theorem dcf77Data_not_dst : dcf77Data c 18 = !c.isdst := by
  simp [dcf77Data, dcf77Fields, lsbFirst_out, bitAt]

/-- The start of the encoded time (R140). -/
theorem dcf77Data_start : dcf77Data c 20 = true := by
  simp [dcf77Data, dcf77Fields, bitAt]

theorem dcf77Bits_blank : dcf77Bits c 0 17 = List.replicate 17 false := by
  have hblank : ∀ s ∈ List.range' 0 17, dcf77Data c s = false := fun s hs =>
    dcf77Data_blank c (.inl (List.mem_range'_1.mp hs).2)
  rw [dcf77Bits, List.map_congr_left hblank, List.map_const', List.length_range']

theorem dcf77Bits_flags : dcf77Bits c 17 4 = [c.isdst, !c.isdst, false, true] := by
  simp [dcf77Bits, List.range', dcf77Data_dst, dcf77Data_not_dst, dcf77Data_blank, dcf77Data_start]

theorem dcf77Bits_minute : dcf77Bits c 21 7 = lsbDigits 3 c.minute :=
  Dcf77Field.minute.dcf77Bits_eq.trans (lsb_bcd 3 c.minute)

theorem dcf77Bits_hour : dcf77Bits c 29 6 = lsbDigits 2 c.hour :=
  Dcf77Field.hour.dcf77Bits_eq.trans (lsb_bcd 2 c.hour)

theorem dcf77Bits_mday : dcf77Bits c 36 6 = lsbDigits 2 c.mday :=
  Dcf77Field.mday.dcf77Bits_eq.trans (lsb_bcd 2 c.mday)

theorem dcf77Bits_wday : dcf77Bits c 42 3 = lsb 3 (if c.wday = 0 then 7 else c.wday) :=
  Dcf77Field.wday.dcf77Bits_eq.trans (lsb_mod_two_pow 3 _)

theorem dcf77Bits_month : dcf77Bits c 45 5 = lsbDigits 1 (c.month + 1) :=
  Dcf77Field.month.dcf77Bits_eq.trans (lsb_bcd 1 (c.month + 1))

theorem dcf77Bits_year : dcf77Bits c 50 8 = lsbDigits 4 (c.year % 100) := by
  rw [Dcf77Field.year.dcf77Bits_eq, ← bcd_mod_hundred]
  exact lsb_bcd 4 (c.year % 100)

/-! ### The parity seconds -/

/-- No field lies at a parity second. -/
theorem dcf77Fields_parity {s : Nat} (h : s = 28 ∨ s = 35 ∨ s = 58) : dcf77Fields c s = false := by
  simp (disch := omega) only [dcf77Fields, lsbFirst_out, bitAt_out, Bool.or_false]

variable {c} in
/-- The parity of a range of fields is that of its data bits. -/
theorem xorRange_dcf77Fields {a n : Nat} (h : ∀ s ∈ List.range' a (n + 1), s ≠ 28 ∧ s ≠ 35 ∧ s ≠ 58) :
    xorRange (dcf77Fields c) a (a + n) = evenBit (dcf77Bits c a (n + 1)) := by
  rw [xorRange_eq_evenBit, dcf77Bits]
  congr 1
  exact List.map_congr_left fun s hs => (dcf77Data_eq_fields (h s hs)).symm

/-- The minute parity, second 28 (R142). -/
theorem dcf77Data_minute_parity : dcf77Data c (21 + 7) = evenBit (dcf77Bits c 21 7) := by
  rw [← xorRange_dcf77Fields (n := 6) (by decide)]
  simp [dcf77Data, dcf77Fields_parity, bitAt]

/-- The hour parity, second 35 (R144). -/
theorem dcf77Data_hour_parity : dcf77Data c (29 + 6) = evenBit (dcf77Bits c 29 6) := by
  rw [← xorRange_dcf77Fields (n := 5) (by decide)]
  simp [dcf77Data, dcf77Fields_parity, bitAt]

/-- The date's four fields, one after the other. -/
theorem dcf77Bits_date : dcf77Bits c 36 22 =
    dcf77Bits c 36 6 ++ dcf77Bits c 42 3 ++ dcf77Bits c 45 5 ++ dcf77Bits c 50 8 := rfl

variable {c}

/-- The XOR of the four fields' parities is the parity of the date's seconds, for the day's tens fit their two bits
(R149). -/
theorem dcf77DateParity_eq_evenBit (hmday : c.mday ≤ 31) : dcf77DateParity c = evenBit (dcf77Bits c 36 22) := by
  have hmdayParity : xorBits (bcd c.mday) = evenBit (lsb 6 (bcd c.mday).toNat) := by
    have hhigh : (bcd c.mday).toNat / 2 ^ 6 = 0 := by
      rw [bcd_toNat]
      unfold tens units
      omega
    rw [xorBits_eq_evenBit, lsb_add 6 2, hhigh, evenBit_append]
    exact Bool.xor_false _
  rw [dcf77Bits_date, evenBit_append, evenBit_append, evenBit_append, Dcf77Field.mday.dcf77Bits_eq,
    Dcf77Field.wday.dcf77Bits_eq, Dcf77Field.month.dcf77Bits_eq, Dcf77Field.year.dcf77Bits_eq, ← hmdayParity,
    ← xorBits_eq_evenBit, ← xorBits_extractLsb', ← xorBits_eq_evenBit]
  rfl

/-- The date parity, second 58 (R149). -/
theorem dcf77Data_date_parity (hmday : c.mday ≤ 31) : dcf77Data c (36 + 22) = evenBit (dcf77Bits c 36 22) := by
  rw [← dcf77DateParity_eq_evenBit hmday]
  simp [dcf77Data, dcf77Fields_parity, bitAt]

/-- A range that its parity second follows. -/
theorem dcf77Bits_succ {a n : Nat} (h : dcf77Data c (a + n) = evenBit (dcf77Bits c a n)) :
    dcf77Bits c a (n + 1) = dcf77Bits c a n ++ [evenBit (dcf77Bits c a n)] := by
  rw [← h, dcf77Bits, List.range'_1_concat, List.map_append]
  rfl

/-! ### The DCF77 frame -/

/-- All data bits of a minute are those of R151's map. -/
theorem syms_dcf77Bits (hmday : c.mday ≤ 31) : syms (dcf77Bits c 0 59) ++ [Sym.idle] = dcf77Map c := by
  have hseconds : dcf77Bits c 0 59 =
      dcf77Bits c 0 17 ++ dcf77Bits c 17 4 ++ dcf77Bits c 21 8 ++ dcf77Bits c 29 7 ++ dcf77Bits c 36 23 := rfl
  rw [hseconds, dcf77Bits_succ (dcf77Data_minute_parity c), dcf77Bits_succ (dcf77Data_hour_parity c),
    dcf77Bits_succ (dcf77Data_date_parity hmday), dcf77Bits_date, dcf77Bits_blank, dcf77Bits_flags, dcf77Bits_minute,
    dcf77Bits_hour, dcf77Bits_mday, dcf77Bits_wday, dcf77Bits_month, dcf77Bits_year]
  simp only [dcf77Map, lsbDigits, syms_append, syms_blank, List.append_assoc]

variable (t : CivilTime)

/-- The frame shows the data bits of the upcoming minute, then `IDLE` (R150, R151). -/
theorem dcf77Frame_toList : (dcf77Frame t).toList = syms (dcf77Bits (addMinute t) 0 59) ++ [Sym.idle] := by
  refine List.ext_getElem (by simp [syms, dcf77Bits]) fun k hk _ => ?_
  rw [Vector.length_toList] at hk
  rw [Vector.getElem_toList, dcf77Frame_getElem t hk]
  by_cases hlast : k = 59
  · subst hlast
    simp [syms, dcf77Bits]
  · have hdata : k < 59 := by omega
    simp [syms, dcf77Bits, hlast, hdata, dataSym]

variable {t}

/-- Before second 59 the frame shows the data bits of the upcoming minute. -/
theorem dcf77Frame_getElem_of_lt {k : Nat} (h : k < 59) :
    (dcf77Frame t)[k] = dataSym (dcf77Data (addMinute t) k) := by
  rw [dcf77Frame_getElem t (by omega), if_neg h.ne]

/-- Before second 59 the frame shows the data bits of the upcoming minute. -/
theorem dcf77Frame_toList_getElem? {k : Nat} (h : k < 59) :
    (dcf77Frame t).toList[k]? = some (dataSym (dcf77Data (addMinute t) k)) := by
  rw [← dcf77Frame_getElem_of_lt h]
  simp [h.trans (by decide : 59 < 60)]

variable (t)

/-- A receiver counts an even number of ones in a range that its parity second closes. -/
theorem countAt_dcf77Frame_even {a n : Nat}
    (hparity : dcf77Data (addMinute t) (a + n) = evenBit (dcf77Bits (addMinute t) a n)) (ha : a + n < 59) :
    countAt isOne (dcf77Frame t) (List.range' a (n + 1)) % 2 = 0 := by
  have hdata : ∀ s ∈ List.range' a (n + 1),
      (dcf77Frame t).toList[s]? = some (dataSym (dcf77Data (addMinute t) s)) := fun s hs => by
    have hrange := List.mem_range'_1.mp hs
    exact dcf77Frame_toList_getElem? (by omega)
  rw [countAt_isOne_of_data hdata, ← dcf77Bits, dcf77Bits_succ hparity]
  exact count_append_evenBit _

/-- What a receiver reads at the seconds of a number sent least significant bit first. -/
theorem weigh_dcf77Frame {a n d : Nat} (hbits : dcf77Bits (addMinute t) a n = lsb n d) (ha : a + n ≤ 59)
    (hd : d < 2 ^ n) (w : Nat) :
    weigh isOne (dcf77Frame t) ((List.range n).map fun k => (a + k, w * 2 ^ k)) = w * d := by
  rw [dcf77Bits, List.range'_eq_map_range, List.map_map, lsb, List.map_inj_left] at hbits
  have hsum := sum_lsb_weights n d w
  rw [Nat.mod_eq_of_lt hd] at hsum
  rw [weigh_isOne_of_data (f := dcf77Data (addMinute t)), List.map_map, ← hsum]
  · congr 1
    refine List.map_congr_left fun k hk => ?_
    rw [← hbits k hk]
    rfl
  · simp only [List.mem_map, List.mem_range]
    rintro _ ⟨k, hk, rfl⟩
    exact dcf77Frame_toList_getElem? (by omega)

/-- What a receiver reads at the seconds of two decimal digits. -/
theorem weigh_lsbWeights_dcf77Frame {a n v : Nat} (hbits : dcf77Bits (addMinute t) a (4 + n) = lsbDigits n v)
    (ha : a + (4 + n) ≤ 59) (hv : v < 100 ∧ v / 10 < 2 ^ n) :
    weigh isOne (dcf77Frame t) (lsbWeights a n) = v := by
  have hsplit : dcf77Bits (addMinute t) a 4 ++ dcf77Bits (addMinute t) (a + 4) n = lsbDigits n v := by
    rw [← hbits, dcf77Bits, dcf77Bits, dcf77Bits, ← List.map_append, List.range'_append_1]
  obtain ⟨hunitsBits, htensBits⟩ := List.append_inj hsplit (by simp [dcf77Bits, lsb])
  have hunits := weigh_dcf77Frame t hunitsBits (by omega) (by omega) 1
  have htens := weigh_dcf77Frame t htensBits (by omega) (by omega) 10
  simp only [Nat.one_mul] at hunits
  rw [lsbWeights, weigh_append, hunits, htens]
  omega

end Dcf77Frame

/-! ### The statements about `ENC.DCF77` -/

/-- No month is longer than 31 days (R101). -/
theorem daysInMonth_le (m y : Nat) : daysInMonth m y ≤ 31 := by
  unfold daysInMonth
  split
  case h_2 => split <;> decide
  all_goals decide

/-- The bounds of the upcoming minute's fields (R103, R110). -/
theorem addMinute_bounds {t : CivilTime} (h : validTime t = true) :
    (addMinute t).minute ≤ 59 ∧ (addMinute t).hour ≤ 23 ∧ (addMinute t).mday ≤ 31 ∧ (addMinute t).month ≤ 11 ∧
      (addMinute t).wday ≤ 6 := by
  obtain ⟨hminute, hhour, -, -, hmday, -, hmonth, hwday, -⟩ :=
    (validTime_iff _).mp ((upcoming_addMinute t).validTime_zero_yday h)
  exact ⟨hminute, hhour, hmday.trans (daysInMonth_le _ _), hmonth, hwday⟩

/-- Settles O33: the frame written is the frame function's, which shows the bits of the map. -/
theorem encDcf77WritesFrame : Obligations.EncDcf77WritesFrame := by
  intro t s h
  obtain ⟨-, -, hmday, -, -⟩ := addMinute_bounds h
  exact ⟨dcf77Frame t, (dcf77Frame_toList t).trans (syms_dcf77Bits hmday),
    encodeMinute_of_valid h .dcf77 dcf77Frame s⟩

/-- Settles O40: each field is read as the number its seconds show. -/
theorem dcf77FrameReadsBack : Obligations.Dcf77FrameReadsBack := by
  intro t s h
  refine ⟨_, encodeMinute_of_valid h .dcf77 dcf77Frame s, ?_⟩
  dsimp only
  obtain ⟨hminute, hhour, hmday, hmonth, hwday⟩ := addMinute_bounds h
  refine ⟨weigh_lsbWeights_dcf77Frame t (dcf77Bits_minute _) (by decide) (by omega),
    weigh_lsbWeights_dcf77Frame t (dcf77Bits_hour _) (by decide) (by omega),
    weigh_lsbWeights_dcf77Frame t (dcf77Bits_mday _) (by decide) (by omega), ?_,
    weigh_lsbWeights_dcf77Frame t (dcf77Bits_month _) (by decide) (by omega),
    weigh_lsbWeights_dcf77Frame t (dcf77Bits_year _) (by decide) (by omega)⟩
  have hweekday : (if (addMinute t).wday = 0 then 7 else (addMinute t).wday) < 2 ^ 3 := by
    split <;> omega
  exact (weigh_dcf77Frame t (dcf77Bits_wday _) (by decide) hweekday 1).trans (Nat.one_mul _)

/-- Settles O42: each range is a list of data bits closed by its parity bit. -/
theorem dcf77ParityCloses : Obligations.Dcf77ParityCloses := by
  intro t s h
  obtain ⟨-, -, hmday, -, -⟩ := addMinute_bounds h
  refine ⟨_, encodeMinute_of_valid h .dcf77 dcf77Frame s, ?_⟩
  exact ⟨countAt_dcf77Frame_even t (dcf77Data_minute_parity _) (by decide),
    countAt_dcf77Frame_even t (dcf77Data_hour_parity _) (by decide),
    countAt_dcf77Frame_even t (dcf77Data_date_parity hmday) (by decide)⟩

/-- Settles O46: the fixed seconds show the fixed data bits, and `MARK` is no code of a DCF77 frame. -/
theorem dcf77FixedSeconds : Obligations.Dcf77FixedSeconds := by
  intro t s h
  refine ⟨_, encodeMinute_of_valid h .dcf77 dcf77Frame s, ?_⟩
  have hframe : (answered (s.frameWrite .dcf77 (dcf77Frame t)) 0).frameDcf77 = dcf77Frame t := rfl
  rw [hframe]
  have hshown {k : Nat} {b : Bool} (hk : k < 59) (hbit : dcf77Data (addMinute t) k = b) :
      (dcf77Frame t)[k] = dataSym b := by rw [dcf77Frame_getElem_of_lt hk, hbit]
  refine ⟨fun k _ hblank => hshown (by omega) (dcf77Data_blank _ (by omega)),
    hshown (by decide) (dcf77Data_start _), dcf77Frame_getElem t (by decide), ?_, fun k hk hmark => ?_⟩
  · have hdst := hshown (by decide) (dcf77Data_dst (addMinute t))
    have hnot := hshown (by decide) (dcf77Data_not_dst (addMinute t))
    cases hflag : (addMinute t).isdst <;> rw [hflag] at hdst hnot
    · exact .inr ⟨hdst, hnot⟩
    · exact .inl ⟨hdst, hnot⟩
  · have hlegal : legalSym .dcf77 (dcf77Frame t)[k] = true := legalSym_frameOf .dcf77 t hk
    rw [hmark] at hlegal
    cases hlegal

end Sys2Proof.Machine
end

section
/-! PROOFS. The family of JJY: the two registers, the levels, what reads `JJYF`, the frame of R171 with what a receiver
reads from it, and its parity. -/

namespace Sys2Proof.Machine

open Sys2Proof.Claims

/-! ### The two registers and the levels -/

/-- Settles O21: each form is one answer, from the state with its register written. -/
theorem configRegisters : Obligations.ConfigRegisters := fun v f s =>
  ⟨answer_eq_answered (s.setSel v) 0, answer_eq_answered s _, answer_eq_answered (s.setJjyf f) 0,
    answer_eq_answered s _⟩

/-- A code JJY does not define, or an offset beyond the second, has the open level (R72). -/
theorem jjyLevel_unlisted {sym : SymCode} {ms : Nat} (h : 999 < ms ∨ 3 ≤ sym.toNat) :
    jjyLevel sym ms = Config.unlistedLevel .jjy sym ms := by
  unfold jjyLevel
  rcases h with hbeyond | hcode
  · exact if_pos hbeyond
  · have hne : sym ≠ Sym.zero ∧ sym ≠ Sym.one ∧ sym ≠ Sym.mark := by
      revert hcode sym
      decide
    obtain ⟨hzero, hone, hmark⟩ := hne
    rw [if_neg hzero, if_neg hone, if_neg hmark, ite_self]

/-- Settles O28: a listed symbol's waveform has one edge. -/
theorem lvlJjyResult : Obligations.LvlJjyResult := by
  intro ms s
  refine ⟨fun hms => ?_, fun sym h => ?_⟩
  · rw [← wave_high_single, ← wave_high_single, ← wave_high_single]
    exact ⟨Waveform.jjyZero.exec_lvl hms s, Waveform.jjyOne.exec_lvl hms s, Waveform.jjyMark.exec_lvl hms s⟩
  · rw [← jjyLevel_unlisted h]
    exact exec_lvlOf .jjy sym ms s

/-! ### What reads `JJYF` -/

/-- Only `FREQ.JJY`, `FREQ.SEL`, `GETJJYF` and `SETJJYF` see `JJYF` (R179). -/
theorem unseen_setJjyf {i : Instr} (hr : readsJjyf i = false) (hw : ∀ v, i ≠ .setJjyf v) (f : BitVec 1) :
    Unseen i (State.setJjyf · f) where
  frame u std := u.setJjyf_frame f std
  respond _ _ _ := rfl
  frameWrite _ std _ := by cases std <;> rfl
  sel _ _ := rfl
  jjyf h := by simp [hr] at h
  setSel _ _ _ := rfl
  setJjyf _ v h := absurd h (hw v)

/-- Settles O52: `SETJJYF` overwrites `JJYF`; no other instruction of the hypothesis sees it. -/
theorem jjyfReadByThreeForms : Obligations.JjyfReadByThreeForms := by
  intro i s t f hreads hexec
  by_cases hw : ∃ v, i = .setJjyf v
  · obtain ⟨v, rfl⟩ := hw
    exact ⟨t, hexec, rfl, rfl, fun _ => rfl, .inl ⟨⟨v, rfl⟩, rfl⟩⟩
  · have hunseen := unseen_setJjyf hreads (fun v hi => hw ⟨v, hi⟩) f
    have hrun : exec i (s.setJjyf f) = .next (t.setJjyf f) := by rw [hunseen.exec_comm, hexec, mapNext_next]
    exact ⟨t.setJjyf f, hrun, rfl, rfl, fun std => t.setJjyf_frame f std, .inr rfl⟩

/-! ### Numbers sent most significant bit first -/

theorem msb_eq_reverse_lsb (w v : Nat) : msb w v = (lsb w v).reverse := by
  rw [lsb, ← List.map_reverse, List.range_eq_range', List.reverse_range', List.map_map]
  simp [msb, Function.comp_def]

/-- Bits from the width on do not matter. -/
theorem msb_mod_two_pow (w v : Nat) : msb w (v % 2 ^ w) = msb w v := by
  rw [msb_eq_reverse_lsb, lsb_mod_two_pow, ← msb_eq_reverse_lsb]

/-- A field at its seconds shows its number (R12). -/
theorem map_msbFirst {n : Nat} (a w : Nat) (v : BitVec n) :
    (List.range' a w).map (msbFirst a w v) = msb w v.toNat := by
  rw [msb, List.range'_eq_map_range, List.map_map]
  exact List.map_congr_left fun k hk => msbFirst_in (List.mem_range.mp hk)

/-- The low bits of plain BCD are the two digits, of the tens the low `n` bits (R87). -/
theorem msb_bcd (n v : Nat) : msb (4 + n) (bcd v).toNat = msb n (v / 10 % 10) ++ msb 4 (v % 10) := by
  rw [msb_eq_reverse_lsb, lsb_bcd, lsbDigits, List.reverse_append, ← msb_eq_reverse_lsb, ← msb_eq_reverse_lsb]

/-! ### The data bits of the JJY frame -/

section JjyFrame

variable (t : CivilTime)

/-- Before second 36 the fields of JJY are those of WWVB: minute, hour and day of year (R163 to R165). -/
theorem jjyData_eq_wwvbData {s : Nat} (h : s < 36) : jjyData t s = wwvbData t s := by
  simp (disch := omega) only [jjyData, jjyFields, wwvbData, msbFirst_out, bitAt_out, Bool.or_false]

/-- From second 38 to 49 only the year lies (R168). -/
theorem jjyData_year {s : Nat} (h : 38 ≤ s ∧ s < 50) : jjyData t s = msbFirst 41 8 (bcd (t.year % 100)) s := by
  simp (disch := omega) only [jjyData, jjyFields, msbFirst_out, bitAt_out, Bool.or_false, Bool.false_or,
    bcd_mod_hundred]

/-- From second 50 on only the weekday lies (R169). -/
theorem jjyData_wday {s : Nat} (h : 50 ≤ s) : jjyData t s = msbFirst 50 3 (BitVec.ofNat 3 t.wday) s := by
  simp (disch := omega) only [jjyData, jjyFields, msbFirst_out, bitAt_out, Bool.or_false, Bool.false_or]

/-- The data bits of the `n` seconds from `a`. -/
def jjyBits (a n : Nat) : List Bool := (List.range' a n).map (jjyData t)

variable {t}

theorem jjyBits_congr {a n : Nat} {f : Nat → Bool} (h : ∀ s, a ≤ s → s < a + n → jjyData t s = f s) :
    jjyBits t a n = (List.range' a n).map f :=
  List.map_congr_left fun s hs => h s (List.mem_range'_1.mp hs).1 (List.mem_range'_1.mp hs).2

variable (t)

theorem jjyBits_eq_wwvbBits {a n : Nat} (h : a + n ≤ 36) : jjyBits t a n = wwvbBits t a n :=
  jjyBits_congr fun _ _ hs => jjyData_eq_wwvbData t (by omega)

theorem jjyBits_minute :
    jjyBits t 1 8 = msb 3 (t.minute / 10 % 10) ++ [false] ++ msb 4 (t.minute % 10) := by
  rw [jjyBits_eq_wwvbBits t (by decide), ← wwvbBits_minute_tens, ← wwvbBits_minute_units,
    ← wwvbData_blank t (s := 4) (by decide)]
  rfl

theorem jjyBits_hour :
    jjyBits t 12 7 = msb 2 (t.hour / 10 % 10) ++ [false] ++ msb 4 (t.hour % 10) := by
  rw [jjyBits_eq_wwvbBits t (by decide), ← wwvbBits_hour_tens, ← wwvbBits_hour_units,
    ← wwvbData_blank t (s := 14) (by decide)]
  rfl

/-- The second before the year (R170). -/
theorem jjyBits_before_year : jjyBits t 40 1 = [false] := by
  rw [jjyBits_congr fun s _ _ => jjyData_year t (by omega)]
  rfl

theorem jjyBits_year :
    jjyBits t 41 8 = msb 4 (t.year % 100 / 10 % 10) ++ msb 4 (t.year % 100 % 10) := by
  rw [jjyBits_congr fun s _ _ => jjyData_year t (by omega), map_msbFirst]
  exact msb_bcd 4 (t.year % 100)

theorem jjyBits_wday : jjyBits t 50 3 = msb 3 t.wday := by
  rw [jjyBits_congr fun s _ _ => jjyData_wday t (by omega), map_msbFirst]
  exact msb_mod_two_pow 3 t.wday

theorem jjyBits_tail : jjyBits t 53 6 = List.replicate 6 false := by
  have hblank : ∀ s ∈ List.range' 53 6, jjyData t s = false := fun s hs => by
    have hafter := (List.mem_range'_1.mp hs).1
    rw [jjyData_wday t (by omega), msbFirst_out (by omega)]
  rw [jjyBits, List.map_congr_left hblank, List.map_const', List.length_range']

/-- No field lies at a parity second. -/
theorem jjyFields_parity {s : Nat} (h : s = 36 ∨ s = 37) : jjyFields t s = false := by
  simp (disch := omega) only [jjyFields, msbFirst_out, Bool.or_false]

variable {t} in
/-- The parity of a range of fields is that of its data bits. -/
theorem xorRange_jjyFields {a n : Nat} (h : a + n < 36) :
    xorRange (jjyFields t) a (a + n) = evenBit (jjyBits t a (n + 1)) := by
  rw [xorRange_eq_evenBit, jjyBits_congr]
  intro s _ hs
  simp (disch := omega) only [jjyData, bitAt_out, Bool.or_false]

/-- PA1, the hour parity, second 36 (R166). -/
theorem jjyData_hour_parity : jjyData t 36 = evenBit (jjyBits t 12 7) := by
  rw [← xorRange_jjyFields (n := 6) (by decide)]
  simp [jjyData, jjyFields_parity, bitAt]

/-- PA2, the minute parity, second 37 (R167). -/
theorem jjyData_minute_parity : jjyData t 37 = evenBit (jjyBits t 1 8) := by
  rw [← xorRange_jjyFields (n := 7) (by decide)]
  simp [jjyData, jjyFields_parity, bitAt]

/-- The two parity seconds and the 0 after them (R166, R167, R170). -/
theorem jjyBits_parity : jjyBits t 36 3 = [evenBit (jjyBits t 12 7), evenBit (jjyBits t 1 8), false] := by
  have hafter : jjyData t 38 = false := jjyData_year t (by decide)
  rw [← jjyData_hour_parity, ← jjyData_minute_parity, ← hafter]
  rfl

/-! ### The JJY frame -/

/-- The symbol of a second (R162, R171). -/
def jjySecond (s : Nat) : SymCode := if jjyMarker s then Sym.mark else dataSym (jjyData t s)

theorem jjyFrame_toList : (jjyFrame t).toList = (List.range 60).map (jjySecond t) :=
  List.ext_getElem (by simp) fun k hk _ => by
    rw [List.getElem_map, List.getElem_range, Vector.getElem_toList, jjyFrame_getElem, jjySecond]

/-- A second without a marker shows its data bit. -/
theorem jjyFrame_getElem?_of_data {s : Nat} (h : s < 60 ∧ jjyMarker s = false) :
    (jjyFrame t).toList[s]? = some (dataSym (jjyData t s)) := by
  simp [jjyFrame_toList, jjySecond, h]

/-- The first 36 seconds are those of the WWVB frame. -/
theorem jjyFrame_toList_take : (jjyFrame t).toList.take 36 = (wwvbFrame t).toList.take 36 := by
  have hrange : (List.range 60).take 36 = List.range 36 := rfl
  rw [jjyFrame_toList, wwvbFrame_toList, ← List.map_take, ← List.map_take, hrange]
  refine List.map_congr_left fun s hs => ?_
  rw [jjySecond, wwvbSecond, jjyData_eq_wwvbData t (List.mem_range.mp hs), jjyMarker_eq_wwvbMarker]

/-- Seconds without a marker show their data bits. -/
theorem map_jjySecond {a n : Nat} (h : ∀ s ∈ List.range' a n, jjyMarker s = false) :
    (List.range' a n).map (jjySecond t) = syms (jjyBits t a n) := by
  rw [syms, jjyBits, List.map_map]
  refine List.map_congr_left fun s hs => ?_
  rw [jjySecond, h s hs]
  rfl

/-- The last 24 seconds show their data bits between the markers. -/
theorem jjyFrame_toList_drop : (jjyFrame t).toList.drop 36 =
    syms (jjyBits t 36 3) ++ [Sym.mark] ++ syms (jjyBits t 40 1) ++ syms (jjyBits t 41 8) ++ [Sym.mark]
      ++ syms (jjyBits t 50 3) ++ syms (jjyBits t 53 6) ++ [Sym.mark] := by
  have hseconds : (List.range 60).drop 36 =
      List.range' 36 3 ++ [39] ++ List.range' 40 1 ++ List.range' 41 8 ++ [49] ++ List.range' 50 3
        ++ List.range' 53 6 ++ [59] := rfl
  rw [jjyFrame_toList, ← List.map_drop, hseconds]
  simp (disch := decide) only [List.map_append, map_jjySecond]
  rfl

/-- The map of R171 begins as that of R127 does. -/
theorem jjyMap_take : (jjyMap t).take 36 = (wwvbMap t).take 36 := by
  unfold jjyMap wwvbMap
  simp only [List.append_assoc]
  rfl

/-- The frame function is R171's map. -/
theorem jjyFrame_toList_eq_map : (jjyFrame t).toList = jjyMap t := by
  rw [← List.take_append_drop 36 (jjyFrame t).toList, ← List.take_append_drop 36 (jjyMap t)]
  refine congrArg₂ (· ++ ·) ?_ ?_
  · rw [jjyFrame_toList_take, wwvbFrame_toList_eq_map, jjyMap_take]
  · rw [jjyFrame_toList_drop, jjyBits_parity, jjyBits_before_year, jjyBits_year, jjyBits_wday, jjyBits_tail,
      jjyBits_minute, jjyBits_hour, syms_blank]
    unfold jjyMap
    simp only [List.append_assoc]
    rfl

/-- What a receiver reads before second 36 is what it reads from the WWVB frame. -/
theorem weigh_jjyFrame_eq_wwvbFrame {ws : List (Nat × Nat)} (h : ∀ x ∈ ws, x.1 < 36) :
    weigh isOne (jjyFrame t) ws = weigh isOne (wwvbFrame t) ws := by
  refine congrArg List.sum (List.map_congr_left fun x hx => ?_)
  rw [← List.getElem?_take_of_lt (h x hx), jjyFrame_toList_take, List.getElem?_take_of_lt (h x hx)]

/-- What a receiver reads at the seconds of a number sent most significant bit first. -/
theorem weigh_jjyFrame {a n d : Nat} (hbits : jjyBits t a n = msb n d)
    (hdata : a + n ≤ 60 ∧ ∀ s ∈ List.range' a n, jjyMarker s = false) (hd : d < 2 ^ n) (w : Nat) :
    weigh isOne (jjyFrame t) (digitWeights a n w) = w * d := by
  obtain ⟨hend, hmarker⟩ := hdata
  refine weigh_digitWeights ?_ hd w
  rw [← hbits]
  refine List.ext_getElem (by simp [syms, jjyBits]; omega) fun k hk _ => ?_
  have hkn : k < n := hk.trans_le (List.length_take_le _ _)
  simp [jjyFrame_toList, jjySecond, syms, jjyBits, dataSym, hmarker (a + k) (List.mem_range'_1.mpr (by omega))]

/-- What a receiver reads at the seconds of the year (R168). -/
theorem weigh_jjyFrame_year : weigh isOne (jjyFrame t) (msbWeights 41 4) = t.year % 100 := by
  obtain ⟨htens, hunits⟩ := List.append_inj (s₁ := jjyBits t 41 4) (t₁ := jjyBits t 45 4) (jjyBits_year t) rfl
  have hweights : msbWeights 41 4 = digitWeights 41 4 10 ++ digitWeights 45 4 1 := rfl
  rw [hweights, weigh_append, weigh_jjyFrame t htens (by decide) (by omega),
    weigh_jjyFrame t hunits (by decide) (by omega)]
  omega

/-- What a receiver reads at the seconds of the weekday (R169). -/
theorem weigh_jjyFrame_wday (h : t.wday ≤ 6) : weigh isOne (jjyFrame t) [(50, 4), (51, 2), (52, 1)] = t.wday :=
  (weigh_jjyFrame t (jjyBits_wday t) (by decide) (by omega) 1).trans (Nat.one_mul _)

/-- A receiver counts an even number of ones in a range with the second that holds its parity bit. -/
theorem countAt_jjyFrame_even {a n p : Nat} (hparity : jjyData t p = evenBit (jjyBits t a n))
    (hdata : ∀ s ∈ List.range' a n ++ [p], s < 60 ∧ jjyMarker s = false) :
    countAt isOne (jjyFrame t) (List.range' a n ++ [p]) % 2 = 0 := by
  rw [countAt_isOne_of_data fun s hs => jjyFrame_getElem?_of_data t (hdata s hs), List.map_append, List.map_singleton,
    hparity]
  exact count_append_evenBit _

end JjyFrame

/-! ### The statements about `ENC.JJY` -/

/-- Settles O34: the frame written is the frame function's, which is the map. -/
theorem encJjyWritesFrame : Obligations.EncJjyWritesFrame := fun t s h =>
  ⟨jjyFrame t, jjyFrame_toList_eq_map t, encodeMinute_of_valid h .jjy jjyFrame s⟩

/-- Settles O39: minute, hour and day of year are read as from a WWVB frame, year and weekday at their own seconds. -/
theorem jjyFrameReadsBack : Obligations.JjyFrameReadsBack := by
  intro t s h
  obtain ⟨-, -, -, -, -, -, -, hwday, -⟩ := (validTime_iff t).mp h
  obtain ⟨u, hexec, hminute, hhour, hdoy, -⟩ := wwvbFrameReadsBack t s h
  obtain rfl := Host.Outcome.next.inj ((encodeMinute_of_valid h .wwvb wwvbFrame s).symm.trans hexec)
  exact ⟨_, encodeMinute_of_valid h .jjy jjyFrame s,
    (weigh_jjyFrame_eq_wwvbFrame t (by decide)).trans hminute,
    (weigh_jjyFrame_eq_wwvbFrame t (by decide)).trans hhour,
    (weigh_jjyFrame_eq_wwvbFrame t (by decide)).trans hdoy, weigh_jjyFrame_year t, weigh_jjyFrame_wday t hwday⟩

/-- Settles O43: each range is a list of data bits, and its parity second holds their parity bit. -/
theorem jjyParityCloses : Obligations.JjyParityCloses := fun t s h =>
  ⟨_, encodeMinute_of_valid h .jjy jjyFrame s, countAt_jjyFrame_even t (jjyData_hour_parity t) (by decide),
    countAt_jjyFrame_even t (jjyData_minute_parity t) (by decide)⟩

end Sys2Proof.Machine
end

section
/-! PROOFS. The family of MSF: the levels, the two channels of the frame of R200 with what a receiver reads from them,
its parity and its fixed seconds. -/

namespace Sys2Proof.Machine

open Sys2Proof.Claims

/-! ### Symbols of channel bits, and levels -/

/-- The claims name the symbol of a pair of channel bits by cases, the model builds its code (R70). -/
theorem pairSym_eq_msfSym (a b : Bool) : pairSym a b = msfSym a b := by
  cases a <;> cases b <;> rfl

/-- The symbols of channel bits are the four data symbols (R70). -/
theorem msfSym_mem (a b : Bool) :
    msfSym a b = Sym.zero ∨ msfSym a b = Sym.one ∨ msfSym a b = Sym.a0b1 ∨ msfSym a b = Sym.a1b1 := by
  revert a b
  decide

theorem msfSym_ne_mark (a b : Bool) : msfSym a b ≠ Sym.mark := by
  revert a b
  decide

/-- Within the second a data symbol holds each channel's slot off while its bit is 1 (R204). -/
theorem msfLevel_msfSym (a b : Bool) {ms : Nat} (hms : ms ≤ 999) :
    msfLevel (msfSym a b) ms = if ms < 100 then false else if ms < 200 then !a else if ms < 300 then !b else true := by
  obtain ⟨ha, -, hb⟩ := msfSym_bits a b
  rw [msfLevel, if_neg (Nat.not_lt.mpr hms), if_neg (msfSym_ne_mark a b), if_pos (msfSym_mem a b), ha, hb]

/-- A code MSF does not define, or an offset beyond the second, has the open level (R72). -/
theorem msfLevel_unlisted {sym : SymCode} {ms : Nat} (h : 999 < ms ∨ sym = Sym.idle ∨ 6 ≤ sym.toNat) :
    msfLevel sym ms = Config.unlistedLevel .msf sym ms := by
  unfold msfLevel
  rcases h with hbeyond | hcode
  · exact if_pos hbeyond
  · have hne : sym ≠ Sym.mark ∧ ¬(sym = Sym.zero ∨ sym = Sym.one ∨ sym = Sym.a0b1 ∨ sym = Sym.a1b1) := by
      revert hcode sym
      decide
    obtain ⟨hmark, hdata⟩ := hne
    rw [if_neg hmark, if_neg hdata, ite_self]

/-- Settles O29: `MARK` has one edge, and a data symbol has the slots of its two channel bits. -/
theorem lvlMsfResult : Obligations.LvlMsfResult := by
  intro ms s
  refine ⟨fun hms => ⟨?_, fun a b => ?_⟩, fun sym h => ?_⟩
  · rw [← wave_low_single]
    exact Waveform.msfMark.exec_lvl hms s
  · rw [pairSym_eq_msfSym, ← msfLevel_msfSym a b hms]
    exact exec_lvlOf .msf (msfSym a b) ms s
  · rw [← msfLevel_unlisted h]
    exact exec_lvlOf .msf sym ms s

/-! ### Odd parity -/

/-- A list closed by its odd parity bit holds an odd number of ones. -/
theorem count_append_oddBit (l : List Bool) : (l ++ [oddBit l]).count true % 2 = 1 := by
  rw [List.count_append, oddBit]
  rcases Nat.mod_two_eq_zero_or_one (l.count true) with h | h <;> simp [Nat.add_mod, h]

/-- The odd parity bit is the inverse of the model's parity of the range (R194 to R197). -/
theorem not_xorRange_eq_oddBit (f : Nat → Bool) (a n : Nat) :
    (!xorRange f a (a + n)) = oddBit ((List.range' a (n + 1)).map f) := by
  rw [xorRange_eq_evenBit, evenBit, oddBit]
  rcases Nat.mod_two_eq_zero_or_one (((List.range' a (n + 1)).map f).count true) with h | h <;> simp [h]

/-! ### Two decimal digits sent most significant bit first -/

/-- Two decimal digits, tens first, each most significant bit first: `n` bits of tens and four bits of units. -/
def msbDigits (n v : Nat) : List Bool := msb n (v / 10 % 10) ++ msb 4 (v % 10)

/-- The weights of two decimal digits are those of the tens, then those of the units. -/
theorem msbWeights_eq (a n : Nat) : msbWeights a n = digitWeights a n 10 ++ digitWeights (a + n) 4 1 := by
  simp [msbWeights, digitWeights]

/-! ### Reading one bit of every symbol of a frame -/

section ReadingChannel

variable {F : Frame} {p : SymCode → Bool} {f : Nat → Bool}

/-- Where `p` finds the bit `f` at every second, the weights of the ones of `f` are added. -/
theorem weigh_of_channel (h : ∀ s, (F.toList[s]?).any p = f s) (ws : List (Nat × Nat)) :
    weigh p F ws = (ws.map fun x => if f x.1 then x.2 else 0).sum := by
  simp only [weigh, h]

/-- Where `p` finds the bit `f` at every second, the ones of `f` are counted. -/
theorem countAt_of_channel (h : ∀ s, (F.toList[s]?).any p = f s) (l : List Nat) :
    countAt p F l = (l.map f).count true := by
  rw [countAt, weigh_of_channel h, List.map_map, ← sum_toNat_eq_count, List.map_map]
  congr 1
  refine List.map_congr_left fun s _ => ?_
  rw [Function.comp_apply, Function.comp_apply]
  cases f s <;> rfl

/-- Where `p` finds the bits of a digit, most significant first, the digit is read times its weight. -/
theorem weigh_digitWeights_of_channel (h : ∀ s, (F.toList[s]?).any p = f s) {a n d : Nat}
    (hbits : (List.range' a n).map f = msb n d) (hd : d < 2 ^ n) (w : Nat) :
    weigh p F (digitWeights a n w) = w * d := by
  rw [List.range'_eq_map_range, List.map_map, msb, List.map_inj_left] at hbits
  have hsum := sum_bit_weights n d w
  rw [Nat.mod_eq_of_lt hd] at hsum
  rw [weigh_of_channel h, digitWeights, List.map_map, ← hsum]
  congr 1
  refine List.map_congr_left fun k hk => ?_
  rw [← hbits k hk]
  rfl

/-- Where `p` finds the bits of two decimal digits, their number is read. -/
theorem weigh_msbWeights_of_channel (h : ∀ s, (F.toList[s]?).any p = f s) {a n v : Nat}
    (hbits : (List.range' a (4 + n)).map f = msbDigits n v) (hv : v < 100 ∧ v / 10 < 2 ^ n) :
    weigh p F (msbWeights a n) = v := by
  have hsplit : (List.range' a n).map f ++ (List.range' (a + n) 4).map f = msbDigits n v := by
    rw [← hbits, ← List.map_append, List.range'_append_1, Nat.add_comm n]
  obtain ⟨htensBits, hunitsBits⟩ := List.append_inj hsplit (by simp [msb])
  rw [msbWeights_eq, weigh_append, weigh_digitWeights_of_channel h htensBits (by omega),
    weigh_digitWeights_of_channel h hunitsBits (by omega)]
  omega

end ReadingChannel

/-! ### Channel A -/

section MsfFrame

variable (c : CivilTime)

/-- The channel A bits of the `n` seconds from `a`. -/
def msfABits (a n : Nat) : List Bool := (List.range' a n).map (msfA c)

/-- The fields of channel A: the first second, the width, and the value sent; the last is the fixed pattern of seconds
52 to 59 (R185 to R191). -/
inductive MsfField : Nat → Nat → {m : Nat} → BitVec m → Prop where
  | year : MsfField 17 8 (bcd c.year)
  | month : MsfField 25 5 (bcd (c.month + 1))
  | mday : MsfField 30 6 (bcd c.mday)
  | wday : MsfField 36 3 (BitVec.ofNat 3 c.wday)
  | hour : MsfField 39 6 (bcd c.hour)
  | minute : MsfField 45 7 (bcd c.minute)
  | fixed : MsfField 52 8 0b01111110#8

namespace MsfField

variable {c} {a w m : Nat} {v : BitVec m}

/-- At its seconds a field lies alone. -/
theorem msfA_eq (h : MsfField c a w v) {s : Nat} (hs : a ≤ s ∧ s < a + w) : msfA c s = msbFirst a w v s := by
  cases h
  all_goals
    simp (disch := omega) only [msfA, encodedMonth, monthOffset, msbFirst_out, Bool.or_false, Bool.false_or]

/-- A field shows its value, most significant bit first. -/
theorem msfABits_eq (h : MsfField c a w v) : msfABits c a w = msb w v.toNat := by
  rw [← map_msbFirst a]
  exact List.map_congr_left fun s hs => h.msfA_eq (List.mem_range'_1.mp hs)

end MsfField

/-- Channel A is 0 before the year and past the minute (R184, R192). -/
theorem msfA_blank {s : Nat} (h : s < 17 ∨ 60 ≤ s) : msfA c s = false := by
  simp (disch := omega) only [msfA, msbFirst_out, Bool.or_false]

theorem msfABits_blank : msfABits c 1 16 = List.replicate 16 false := by
  have hblank : ∀ s ∈ List.range' 1 16, msfA c s = false := fun s hs =>
    msfA_blank c (.inl (List.mem_range'_1.mp hs).2)
  rw [msfABits, List.map_congr_left hblank, List.map_const', List.length_range']

theorem msfABits_year : msfABits c 17 8 = msbDigits 4 (c.year % 100) := by
  rw [MsfField.year.msfABits_eq, ← bcd_mod_hundred]
  exact msb_bcd 4 (c.year % 100)

theorem msfABits_month : msfABits c 25 5 = msbDigits 1 (c.month + 1) :=
  MsfField.month.msfABits_eq.trans (msb_bcd 1 (c.month + 1))

theorem msfABits_mday : msfABits c 30 6 = msbDigits 2 c.mday :=
  MsfField.mday.msfABits_eq.trans (msb_bcd 2 c.mday)

theorem msfABits_wday : msfABits c 36 3 = msb 3 c.wday :=
  MsfField.wday.msfABits_eq.trans (msb_mod_two_pow 3 c.wday)

theorem msfABits_hour : msfABits c 39 6 = msbDigits 2 c.hour :=
  MsfField.hour.msfABits_eq.trans (msb_bcd 2 c.hour)

theorem msfABits_minute : msfABits c 45 7 = msbDigits 3 c.minute :=
  MsfField.minute.msfABits_eq.trans (msb_bcd 3 c.minute)

theorem msfABits_fixed : msfABits c 52 8 = [false, true, true, true, true, true, true, false] :=
  MsfField.fixed.msfABits_eq.trans (by decide)

/-- A second of the fixed pattern: 0 at both ends, 1 between them (R191). -/
theorem msfA_fixed {s : Nat} (h : 52 ≤ s ∧ s < 60) : msfA c s = decide (53 ≤ s ∧ s ≤ 58) := by
  rw [MsfField.fixed.msfA_eq h]
  obtain ⟨hlo, hhi⟩ := h
  interval_cases s <;> rfl

/-- Channel A of seconds 1 to 59, field by field. -/
theorem msfABits_all : msfABits c 1 59 =
    msfABits c 1 16 ++ msfABits c 17 8 ++ msfABits c 25 5 ++ msfABits c 30 6 ++ msfABits c 36 3
      ++ msfABits c 39 6 ++ msfABits c 45 7 ++ msfABits c 52 8 := rfl

/-! ### Channel B -/

/-- The protected ranges of channel A: the second of the parity bit on channel B, the first second of the range, and
how many follow it (R194 to R197). -/
inductive MsfProtected : Nat → Nat → Nat → Prop where
  | year : MsfProtected 54 17 7
  | date : MsfProtected 55 25 10
  | weekday : MsfProtected 56 36 2
  | time : MsfProtected 57 39 12

/-- At a parity second channel B carries the odd parity bit of its range of channel A. -/
theorem MsfProtected.msfB_eq {p a n : Nat} (h : MsfProtected p a n) : msfB c p = oddBit (msfABits c a (n + 1)) := by
  have hparity : msfB c p = !xorRange (msfA c) a (a + n) := by cases h <;> simp [msfB, bitAt]
  rw [hparity, not_xorRange_eq_oddBit, msfABits]

/-- The DST bit (R198). -/
theorem msfB_dst : msfB c 58 = c.isdst := rfl

/-- Channel B is 0 outside seconds 54 to 58 (R193, R199). -/
theorem msfB_blank {s : Nat} (h : s < 54 ∨ 59 ≤ s) : msfB c s = false := by
  simp (disch := omega) only [msfB, bitAt_out, Bool.or_false]

/-- Channel B of seconds 1 to 59. -/
theorem map_msfB_all : (List.range' 1 59).map (msfB c) =
    List.replicate 53 false ++ [oddBit (msfABits c 17 8), oddBit (msfABits c 25 11), oddBit (msfABits c 36 3),
      oddBit (msfABits c 39 13), c.isdst, false] := by
  have hblank : ∀ s ∈ List.range' 1 53, msfB c s = false := fun s hs =>
    msfB_blank c (.inl (List.mem_range'_1.mp hs).2)
  have hseconds : List.range' 1 59 = List.range' 1 53 ++ [54, 55, 56, 57, 58, 59] := rfl
  rw [hseconds, List.map_append, List.map_congr_left hblank, List.map_const', List.length_range',
    ← MsfProtected.year.msfB_eq, ← MsfProtected.date.msfB_eq, ← MsfProtected.weekday.msfB_eq,
    ← MsfProtected.time.msfB_eq, ← msfB_dst, ← msfB_blank c (s := 59) (by decide)]
  rfl

/-! ### The MSF frame -/

/-- Second 0 and both channels are R200's map. -/
theorem mark_cons_channels_eq_msfMap :
    Sym.mark :: List.zipWith pairSym (msfABits c 1 59) ((List.range' 1 59).map (msfB c)) = msfMap c := by
  have hdate : msfABits c 25 11 = msfABits c 25 5 ++ msfABits c 30 6 := rfl
  have htime : msfABits c 39 13 = msfABits c 39 6 ++ msfABits c 45 7 := rfl
  rw [map_msfB_all, msfABits_all, hdate, htime, msfABits_blank, msfABits_year, msfABits_month, msfABits_mday,
    msfABits_wday, msfABits_hour, msfABits_minute, msfABits_fixed]
  rfl

variable (t : CivilTime)

/-- The frame shows `MARK`, then both channels of the upcoming minute (R184, R200). -/
theorem msfFrame_toList : (msfFrame t).toList = Sym.mark ::
    List.zipWith pairSym (msfABits (addMinute t) 1 59) ((List.range' 1 59).map (msfB (addMinute t))) := by
  refine List.ext_getElem (by simp [msfABits]) fun k hk _ => ?_
  rw [Vector.getElem_toList, msfFrame_getElem]
  cases k with
  | zero => rfl
  | succ k => simp [msfABits, pairSym_eq_msfSym, Nat.add_comm 1 k]

/-- After second 0 the frame shows the two channel bits of the upcoming minute. -/
theorem msfFrame_getElem_of_pos {k : Nat} (h : k < 60) (hpos : 0 < k) :
    (msfFrame t)[k] = msfSym (msfA (addMinute t) k) (msfB (addMinute t) k) := by
  rw [msfFrame_getElem t h, if_neg hpos.ne']

/-- What finds a channel's bit in every symbol of channel bits, and 0 in `MARK`, finds the channel in the frame. -/
theorem any_msfFrame {p : SymCode → Bool} {f : Nat → Bool} (hmark : p Sym.mark = false)
    (hbit : ∀ s, p (msfSym (msfA (addMinute t) s) (msfB (addMinute t) s)) = f s)
    (hblank : ∀ s, s = 0 ∨ 60 ≤ s → f s = false) (s : Nat) : ((msfFrame t).toList[s]?).any p = f s := by
  by_cases hs : s < 60
  · have hentry : (msfFrame t).toList[s]? = some (msfFrame t)[s] := by simp [hs]
    rw [hentry, Option.any_some]
    rcases Nat.eq_zero_or_pos s with rfl | hpos
    · rw [msfFrame_getElem t hs, if_pos rfl, hmark, hblank 0 (.inl rfl)]
    · rw [msfFrame_getElem_of_pos t hs hpos, hbit]
  · have hnone : (msfFrame t).toList[s]? = none := by simpa using hs
    rw [hnone, Option.any_none, hblank s (.inr (Nat.not_lt.mp hs))]

/-- A receiver of channel A finds its bits at every second. -/
theorem any_isA_msfFrame (s : Nat) : ((msfFrame t).toList[s]?).any isA = msfA (addMinute t) s :=
  any_msfFrame t (f := msfA (addMinute t)) rfl (fun _ => (msfSym_bits _ _).1)
    (fun _ hblank => msfA_blank _ (by omega)) s

/-- A receiver of channel B finds its bits at every second. -/
theorem any_isB_msfFrame (s : Nat) :
    ((msfFrame t).toList[s]?).any (fun c => c.getLsbD 2) = msfB (addMinute t) s :=
  any_msfFrame t (f := msfB (addMinute t)) rfl (fun _ => (msfSym_bits _ _).2.2)
    (fun _ hblank => msfB_blank _ (by omega)) s

/-- What a receiver of channel A reads at the seconds of two decimal digits. -/
theorem weigh_msbWeights_msfFrame {a n v : Nat} (hbits : msfABits (addMinute t) a (4 + n) = msbDigits n v)
    (hv : v < 100 ∧ v / 10 < 2 ^ n) : weigh isA (msfFrame t) (msbWeights a n) = v :=
  weigh_msbWeights_of_channel (any_isA_msfFrame t) hbits hv

/-- A receiver counts an odd number of ones in a protected range of channel A with its bit on channel B. -/
theorem countAt_msfFrame_odd {p a n : Nat} (h : MsfProtected p a n) :
    (countAt isA (msfFrame t) (List.range' a (n + 1)) + countAt (fun c => c.getLsbD 2) (msfFrame t) [p]) % 2 = 1 := by
  rw [countAt_of_channel (any_isA_msfFrame t), countAt_of_channel (any_isB_msfFrame t), ← msfABits,
    List.map_singleton, h.msfB_eq, ← List.count_append]
  exact count_append_oddBit _

end MsfFrame

/-! ### The statements about `ENC.MSF` -/

/-- Settles O35: the frame written is the frame function's, which shows the channels of the map. -/
theorem encMsfWritesFrame : Obligations.EncMsfWritesFrame := fun t s h =>
  ⟨msfFrame t, (msfFrame_toList t).trans (mark_cons_channels_eq_msfMap _), encodeMinute_of_valid h .msf msfFrame s⟩

/-- Settles O41: each field is read as the number its seconds of channel A show. -/
theorem msfFrameReadsBack : Obligations.MsfFrameReadsBack := by
  intro t s h
  refine ⟨_, encodeMinute_of_valid h .msf msfFrame s, ?_⟩
  dsimp only
  obtain ⟨hminute, hhour, hmday, hmonth, hwday⟩ := addMinute_bounds h
  have hweekday := weigh_digitWeights_of_channel (any_isA_msfFrame t) (msfABits_wday _) (by omega) 1
  rw [Nat.one_mul] at hweekday
  exact ⟨weigh_msbWeights_msfFrame t (msfABits_year _) (by omega),
    weigh_msbWeights_msfFrame t (msfABits_month _) (by omega),
    weigh_msbWeights_msfFrame t (msfABits_mday _) (by omega), hweekday,
    weigh_msbWeights_msfFrame t (msfABits_hour _) (by omega),
    weigh_msbWeights_msfFrame t (msfABits_minute _) (by omega)⟩

/-- Settles O44: each range of channel A and its bit on channel B are a list closed by its odd parity bit. -/
theorem msfParityCloses : Obligations.MsfParityCloses := fun t s h =>
  ⟨_, encodeMinute_of_valid h .msf msfFrame s, countAt_msfFrame_odd t .year, countAt_msfFrame_odd t .date,
    countAt_msfFrame_odd t .weekday, countAt_msfFrame_odd t .time⟩

/-- Settles O47: from second 52 on channel A is fixed, channel B is 0 but at seconds 54 to 58, and no pair of channel
bits is `MARK`. -/
theorem msfFixedSeconds : Obligations.MsfFixedSeconds := by
  intro t s h
  refine ⟨_, encodeMinute_of_valid h .msf msfFrame s, ?_⟩
  have hframe : (answered (s.frameWrite .msf (msfFrame t)) 0).frameMsf = msfFrame t := rfl
  rw [hframe]
  have hshown (k : Nat) (hk : k < 60) (hfixed : 52 ≤ k) :
      (msfFrame t)[k] = msfSym (decide (53 ≤ k ∧ k ≤ 58)) (msfB (addMinute t) k) := by
    rw [msfFrame_getElem_of_pos t hk (by omega), msfA_fixed _ ⟨hfixed, hk⟩]
  have hquiet (k : Nat) (hk : k < 60) (hblank : 52 ≤ k ∧ (k < 54 ∨ 59 ≤ k)) :
      (msfFrame t)[k] = msfSym (decide (53 ≤ k ∧ k ≤ 58)) false := by
    rw [hshown k hk hblank.1, msfB_blank _ hblank.2]
  refine ⟨msfFrame_getElem t (by decide), hquiet 52 (by decide) (by decide), hquiet 53 (by decide) (by decide),
    hquiet 59 (by decide) (by decide), fun k hk hlo hhi => ?_, fun k hk hpos => ?_⟩
  · rw [hshown k hk (by omega), decide_eq_true ⟨by omega, hhi⟩]
    cases msfB (addMinute t) k
    · exact .inl rfl
    · exact .inr rfl
  · rw [msfFrame_getElem_of_pos t hk hpos]
    exact msfSym_ne_mark _ _

end Sys2Proof.Machine
end

section
/-! PROOFS. The family of the dispatch forms and `NOP`: each dispatch form is the form of the live standard, so what is
proved of the four standards' forms holds of it. -/

namespace Sys2Proof.Machine

open Sys2Proof.Claims

/-- Settles O15: `NOP` is the answer 0. -/
theorem nopResult : Obligations.NopResult := fun s => answer_eq_answered s 0

/-! ### A dispatch form is the live standard's form -/

/-- The `SYM` of a standard. -/
def symOf : Std → Int → Instr
  | .wwvb => .symWwvb
  | .dcf77 => .symDcf77
  | .jjy => .symJjy
  | .msf => .symMsf

/-- The `FREQ` of a standard. -/
def freqOf : Std → Instr
  | .wwvb => .freqWwvb
  | .dcf77 => .freqDcf77
  | .jjy => .freqJjy
  | .msf => .freqMsf

/-- The `SYM` of a standard reads its frame (R130, R154, R174, R203). -/
theorem exec_symOf (std : Std) (index : Int) (s : State) :
    exec (symOf std index) s = symbolForSecond std index s := by
  cases std <;> rfl

/-- The `FREQ` of a standard answers its frequency (R132, R156, R176, R205). -/
theorem exec_freqOf (std : Std) (s : State) : exec (freqOf std) s = answer s (frequencyOf s std) := by
  cases std <;> rfl

/-- `ENC.SEL` is the live standard's `ENC`, as an instruction (R212). -/
theorem exec_encSel (t : CivilTime) (s : State) : exec (.encSel t) s = exec (encOf s.live t) s := by
  rw [exec_encOf]
  exact execEncSel_eq t s

/-- `SYM.SEL` is the live standard's `SYM`, as an instruction (R213). -/
theorem exec_symSel (index : Int) (s : State) : exec (.symSel index) s = exec (symOf s.live index) s := by
  rw [exec_symOf]
  rfl

/-- `LVL.SEL` is the live standard's `LVL`, as an instruction (R214). -/
theorem exec_lvlSel (sym : SymCode) (ms : Nat) (s : State) :
    exec (.lvlSel sym ms) s = exec (lvlOf s.live sym ms) s := by
  rw [exec_lvlOf, levelRes, ← answer_eq_answered, ← resOfBool_eq]
  exact execLvlSel_eq sym ms s

/-- `FREQ.SEL` is the live standard's `FREQ`, as an instruction (R215). -/
theorem exec_freqSel (s : State) : exec .freqSel s = exec (freqOf s.live) s := by
  rw [exec_freqOf]
  exact execFreqSel_eq s

/-- A form that runs as the live standard's among four runs as the one that the code in `SEL` chooses (R60, R209). -/
theorem exec_eq_exec_byCode {i : Instr} {s : State} (form : Std → Instr) (h : exec i s = exec (form s.live) s) :
    exec i s = exec (byCode s.sel (form .wwvb) (form .dcf77) (form .jjy) (form .msf)) s := by
  rw [byCode_sel, h]

/-- Settles O37: each of the four dispatch forms is the live standard's form, the one that the code in `SEL` chooses. -/
theorem dispatchFormsEqualStandardForms : Obligations.DispatchFormsEqualStandardForms := fun s t index sym ms =>
  ⟨exec_eq_exec_byCode (encOf · t) (exec_encSel t s), exec_eq_exec_byCode (symOf · index) (exec_symSel index s),
    exec_eq_exec_byCode (lvlOf · sym ms) (exec_lvlSel sym ms s), exec_eq_exec_byCode freqOf (exec_freqSel s)⟩

/-! ### `ENC.SEL` -/

/-- The map of a standard's frame for the civil time given to its `ENC`; DCF77 and MSF send the upcoming minute
(R127, R151, R171, R200). -/
def mapOf : Std → CivilTime → List SymCode
  | .wwvb, t => wwvbMap t
  | .dcf77, t => dcf77Map (addMinute t)
  | .jjy, t => jjyMap t
  | .msf, t => msfMap (addMinute t)

/-- The `ENC` of a standard writes its map to its frame: the four statements on the standards' forms as one. -/
theorem exec_encOf_writes_mapOf {t : CivilTime} (h : validTime t = true) (std : Std) (s : State) :
    ∃ F : Frame, F.toList = mapOf std t ∧
      exec (encOf std t) s = .next (answered (s.frameWrite std F) 0) := by
  cases std with
  | wwvb => exact encWwvbWritesFrame t s h
  | dcf77 => exact encDcf77WritesFrame t s h
  | jjy => exact encJjyWritesFrame t s h
  | msf => exact encMsfWritesFrame t s h

/-- Settles O36: `ENC.SEL` is the live standard's `ENC`, and `SEL` chooses that standard's map and frame. -/
theorem encSelWritesLiveFrame : Obligations.EncSelWritesLiveFrame := by
  intro t s h
  obtain ⟨F, hmap, hexec⟩ := exec_encOf_writes_mapOf h s.live s
  have hchosen := byCode_sel (mapOf · t) s
  have hwritten := byCode_sel (s.frameWrite · F) s
  rw [← hchosen] at hmap
  rw [← hwritten] at hexec
  exact ⟨F, hmap, (exec_encSel t s).trans hexec⟩

/-! ### `LVL.SEL` -/

/-- Settles O30, by the value of `SEL`: each standard's own statement gives its levels. For MSF, `ZERO` and `ONE` are
waveforms of one edge. -/
theorem lvlSelResult : Obligations.LvlSelResult := by
  intro ms s hms
  simp only [exec_lvlSel]
  rcases live_cases s with ⟨hsel, hlive⟩ | ⟨hsel, hlive⟩ | ⟨hsel, hlive⟩ | ⟨hsel, hlive⟩ <;> rw [hsel, hlive]
  · obtain ⟨hzero, hone, hmark⟩ := (lvlWwvbResult ms s).1 hms
    exact ⟨hzero, hone, fun _ => hmark, fun h => absurd h (by decide)⟩
  · obtain ⟨hzero, hone, hidle⟩ := (lvlDcf77Result ms s).1 hms
    exact ⟨hzero, hone, fun h => absurd rfl h, fun _ => hidle⟩
  · obtain ⟨hzero, hone, hmark⟩ := (lvlJjyResult ms s).1 hms
    exact ⟨hzero, hone, fun _ => hmark, fun h => absurd h (by decide)⟩
  · have hzero := Waveform.msfZero.exec_lvl hms s
    have hone := Waveform.msfOne.exec_lvl hms s
    obtain ⟨hmark, -⟩ := (lvlMsfResult ms s).1 hms
    rw [wave_low_single] at hzero hone
    exact ⟨hzero, hone, fun _ => hmark, fun h => absurd h (by decide)⟩

end Sys2Proof.Machine
end

section
/-! PROOFS. The family of the exceptions: which instructions fault, how the core answers an ILLEGAL word, and the step
with nothing issued. -/

namespace Sys2Proof.Machine

open Sys2Proof.Claims

/-! ### Safe instructions and faults -/

/-- An instruction is safe when the civil time it carries, if any, is valid (R225). -/
theorem safeInstr_iff (i : Instr) : safeInstr i = true ↔ ∀ c, civilTimeOf i = some c → validTime c = true := by
  cases h : civilTimeOf i <;> simp [safeInstr, h]

/-- An instruction that carries an invalid civil time faults, from every state (R225). -/
theorem exec_fault_of_invalid {i : Instr} {c : CivilTime} (h : civilTimeOf i = some c) (hinvalid : validTime c = false)
    (s : State) : exec i s = .fault .invalidCivilTime := by
  obtain ⟨std, hexec⟩ := exec_eq_encodeMinute_of_civilTime h s
  rcases encodeMinute_cases std (frameOf std) c s with ⟨hvalid, _⟩ | ⟨_, hfault⟩
  · cases hinvalid.symm.trans hvalid
  · exact hexec.trans hfault

/-! ### The statements -/

/-- Settles O13: an `ENC` encodes its civil time or faults on it, and an instruction without an invalid one is safe. -/
theorem onlyInvalidEncFaults : Obligations.OnlyInvalidEncFaults := fun i s =>
  ⟨fun ⟨_, hcivil, hinvalid⟩ => exec_fault_of_invalid hcivil hinvalid s,
    fun hvalid => exec_next_of_safeInstr ((safeInstr_iff i).mpr hvalid) s⟩

/-- Settles O8: the decoder refuses an ILLEGAL word whatever its operands, and a refused request is answered (1, 0). -/
theorem illegalWordIsAnswered : Obligations.IllegalWordIsAnswered := by
  intro s c a b rest hevents hillegal
  obtain ⟨e, hrefused⟩ := (decodeRefusesExactlyIllegalWords c a b).mpr hillegal
  rw [step_of_decode_error hevents hrefused, raiseIllegal_eq]
  rfl

/-- Settles O9: there is no event to take, and the idle step keeps the state. -/
theorem idleCoreHoldsState : Obligations.IdleCoreHoldsState := by
  intro s hevents
  simp only [step, takeEvent_nil hevents, idle_eq]

end Sys2Proof.Machine
end

section
/-! PROOFS. The family of reset: what the reset event sets and leaves, and the state after reset. -/

namespace Sys2Proof.Machine

open Sys2Proof.Claims

/-- The reset frame, as the list of its 60 entries (R33). -/
theorem zeros_toList : Frame.zeros.toList = List.replicate 60 Sym.zero :=
  Vector.toList_replicate

/-! ### The statements -/

/-- Settles O10: the step performs the reset event, which makes every frame the reset frame and leaves the ports. -/
theorem resetEventSetsState : Obligations.ResetEventSetsState := by
  intro s rest hevents
  refine ⟨_, step_of_reset hevents, fun std k hk => ?_, rfl, rfl, rfl, rfl⟩
  have hframe := resetCore_frame (s := { s with events := rest }) rfl std
  simp only [hframe, zeros_getElem hk]

/-- Settles O11: each of the four frames of the reset state is the reset frame. -/
theorem resetStateValues : Obligations.ResetStateValues :=
  ⟨zeros_toList, zeros_toList, zeros_toList, zeros_toList, rfl, rfl⟩

end Sys2Proof.Machine
end
